-- ==== Sys2Proof/Word.lean ====
section
/-! DEFINITION. The fixed-width words of the block (00_scope.md R8): `u8`, `u16`, `u32` and the 64-bit status word. -/

namespace Sys2Proof

/-- `u8` (00_scope.md R8); a byte sequence (R9) is a `List Byte`, index 0 the byte received first. -/
abbrev Byte := BitVec 8

/-- The 16-bit command word `CMD[15:0]` (30_encoding.md R60). -/
abbrev CmdWord := BitVec 16

/-- `u32` (00_scope.md R8). -/
abbrev U32 := BitVec 32

/-- `u64`, the width of the status word (10_state.md R29). -/
abbrev U64 := BitVec 64

end Sys2Proof
end

