-- ==== Sys2Proof/Config.lean ====
section
/-! DEFINITION. The implementation parameters of 00_scope.md R7 that no test program can show wrong, the type of the OPEN
parameter RQ_DEPTH, and the free values. The CRC parameters stand in Machine/Ops.lean with the function they shape. -/

namespace Sys2Proof

/-- `SYNC` (R7). -/
def Config.sync : Byte := 0x55

/-- `MAX_FRAME` (R7): 1 + 4 + 1 + 65535 + 255 + 1. -/
def Config.maxFrame : Nat := 65797

/-- `BUF_CAP` (R7), equal to `MAX_FRAME`. -/
def Config.bufCap : Nat := 65797

/-- The largest data length the 16-bit header field carries (R7 `DL_BITS`, 30_encoding.md R82). -/
def Config.maxDataLen : Nat := 65535

/-- The largest optional-data length the 8-bit header field carries (R7 `OL_BITS`, 30_encoding.md R82). -/
def Config.maxOptLen : Nat := 255

/-- `MIN_ERP1_DATA_LEN` (R7). -/
def Config.minErp1DataLen : Nat := 6

/-- `MAX_FIELD_WIDTH` (R7). -/
def Config.maxFieldWidth : Nat := 32

/-- The values `RQ_DEPTH` may take (R7, 92_eei_decisions.md D10): unbounded, or a positive integer (the positivity is
`queueDepthOk` of Machine/Operands.lean). The value a machine was built with is held in `State.rqDepth` (log entry 3). -/
inductive QueueDepth where
  | unbounded
  | bounded (n : Nat)
  deriving DecidableEq, Repr

/-- `RssiInterp : u8 -> Int`, OPEN (R7, 42_erp1.md R173, 92_eei_decisions.md D16). A free value: it has no body, so
nothing can be proved about the dBm value of a byte (log entry 4). -/
opaque Config.rssiInterp : Byte → Int

/-- What an index at or past the end of a byte sequence would read. 00_scope.md R9 gives `s[i]` only for `i < |s|` and
20_memory.md R41 says no rule reads out of range, so no result may rest on it; it is a free value without a body, and a
transcription that read out of range would show it (log entry 5). -/
opaque Config.outOfRangeByte : Byte

end Sys2Proof
end

