-- ==== Sys2Proof/Syntax.lean ====
section
/-! DEFINITION. The instructions: one constructor per row of spec/opcode_table.json. The operands that travel on the
operand ports (30_encoding.md R61) are no part of a command word; the meanings read them from the ports. -/

namespace Sys2Proof

/-- The ten commands of 30_encoding.md R62 and the three packet-type rows of the opcode table (41_framer.md R120). -/
inductive Instr where
  /-- `CRC.INIT`, 40_crc8.md R104. -/
  | crcInit
  /-- `CRC.UPD #b`, 40_crc8.md R105. -/
  | crcUpd (b : Byte)
  /-- `CRC.RD`, 40_crc8.md R106. -/
  | crcRd
  /-- `FRM.PUSH #b`, 41_framer.md R150. -/
  | frmPush (b : Byte)
  /-- `FRM.POP`, 41_framer.md R152. -/
  | frmPop
  /-- `FRM.STAT`, 41_framer.md R153. -/
  | frmStat
  /-- `FRM.DEC`, 41_framer.md R130; its frame is on port FRAME. -/
  | frmDec
  /-- `ERP1.EXT`, 42_erp1.md R170; its packet is on port PKT. -/
  | erp1Ext
  /-- `FLD.EXT`, 42_erp1.md R180; its operands are on ports PAYLOAD, OFFSET and WIDTH. -/
  | fldExt
  /-- `RESET`, 70_reset_and_hazards.md R230. -/
  | reset
  /-- The packet-type byte `0x01` presented to the classifier (41_framer.md R120). -/
  | ptypeRadioErp1
  /-- The packet-type byte `0x02` presented to the classifier (41_framer.md R120). -/
  | ptypeResponse
  /-- Any other packet-type byte `c` presented to the classifier (41_framer.md R120, 30_encoding.md R75). -/
  | ptypeUnsupported (c : Byte)
  deriving DecidableEq, Repr

end Sys2Proof
end

