-- ==== Sys2Proof/WellFormed.lean ====
section
/-! DEFINITION. Which instruction terms stand for an encoding: every byte operand is legal (40_crc8.md R105,
41_framer.md R150), and the row for unsupported packet types excludes the two supported codes (30_encoding.md R74). -/

namespace Sys2Proof

/-- A term some code word encodes. The only check the encoding makes is that an unsupported packet-type byte is not one
of the two supported codes. The operand invariants of R82 and R181 concern the ports, not the term: they are in
Machine/Operands.lean. -/
def wellFormed : Instr → Bool
  | .crcInit => true
  | .crcUpd _ => true
  | .crcRd => true
  | .frmPush _ => true
  | .frmPop => true
  | .frmStat => true
  | .frmDec => true
  | .erp1Ext => true
  | .fldExt => true
  | .reset => true
  | .ptypeRadioErp1 => true
  | .ptypeResponse => true
  | .ptypeUnsupported c => c != 0x01 && c != 0x02

/-- `wellFormed` as a proposition, for statements. -/
abbrev WellFormed (i : Instr) : Prop := wellFormed i = true

end Sys2Proof
end

