-- ==== Sys2Proof/Decode.lean ====
section
/-! DEFINITION. The code words (30_encoding.md R60, R74), the decoder, total and rejecting by name (R62, R64, R66), the
encoder, and each row's match and mask (spec/opcode_table.json). -/

namespace Sys2Proof

/-- A word to decode, in one of the opcode table's two formats: a command word of format CMD16 (R60), or a packet-type
byte of format PTYPE8 (41_framer.md R120). They arrive on different paths, so a byte never reads as a command. -/
inductive CodeWord where
  | cmd16 (w : CmdWord)
  | ptype8 (b : Byte)
  deriving DecidableEq, Repr

/-- Why a command word is reserved (R66). -/
inductive DecodeError where
  /-- R66 (a): no row of R62 has this `OP`. -/
  | unassignedOp (op : Byte)
  /-- R66 (b): `OP` requires `IMM8 = 0x00`. -/
  | nonZeroImm (op imm : Byte)
  deriving DecidableEq, Repr

/-- `OP = CMD[15:8]` (R60). -/
def cmdOp (w : CmdWord) : Byte := w.extractLsb' 8 8

/-- `IMM8 = CMD[7:0]` (R60, R63). -/
def cmdImm (w : CmdWord) : Byte := w.extractLsb' 0 8

/-- The command whose row of R62 has this `OP` and requires `IMM8 = 0x00`. -/
def zeroImmCommand (op : Byte) : Option Instr :=
  if op = 0x01 then some .crcInit
  else if op = 0x03 then some .crcRd
  else if op = 0x11 then some .frmPop
  else if op = 0x12 then some .frmStat
  else if op = 0x13 then some .frmDec
  else if op = 0x20 then some .erp1Ext
  else if op = 0x21 then some .fldExt
  else if op = 0xFF then some .reset
  else none

/-- The decoder of command words: it reads `OP`, then checks `IMM8` where R62 requires zero (R64). -/
def decodeCmd (w : CmdWord) : Except DecodeError Instr :=
  if cmdOp w = 0x02 then .ok (.crcUpd (cmdImm w))
  else if cmdOp w = 0x10 then .ok (.frmPush (cmdImm w))
  else match zeroImmCommand (cmdOp w) with
    | some i => if cmdImm w = 0x00 then .ok i else .error (.nonZeroImm (cmdOp w) (cmdImm w))
    | none => .error (.unassignedOp (cmdOp w))

/-- The rows of format PTYPE8: the two supported codes first, the catch-all row last (R74, R75). -/
def decodePtype (b : Byte) : Instr :=
  if b = 0x01 then .ptypeRadioErp1
  else if b = 0x02 then .ptypeResponse
  else .ptypeUnsupported b

/-- The decoder. -/
def decode : CodeWord → Except DecodeError Instr
  | .cmd16 w => decodeCmd w
  | .ptype8 b => .ok (decodePtype b)

/-- The command word with this `OP` and `IMM8` (R60). -/
def cmdWord (op imm : Byte) : CmdWord := op ++ imm

/-- The encoder, from the tables of R62 and R74. -/
def encode : Instr → CodeWord
  | .crcInit => .cmd16 (cmdWord 0x01 0x00)
  | .crcUpd b => .cmd16 (cmdWord 0x02 b)
  | .crcRd => .cmd16 (cmdWord 0x03 0x00)
  | .frmPush b => .cmd16 (cmdWord 0x10 b)
  | .frmPop => .cmd16 (cmdWord 0x11 0x00)
  | .frmStat => .cmd16 (cmdWord 0x12 0x00)
  | .frmDec => .cmd16 (cmdWord 0x13 0x00)
  | .erp1Ext => .cmd16 (cmdWord 0x20 0x00)
  | .fldExt => .cmd16 (cmdWord 0x21 0x00)
  | .reset => .cmd16 (cmdWord 0xFF 0x00)
  | .ptypeRadioErp1 => .ptype8 0x01
  | .ptypeResponse => .ptype8 0x02
  | .ptypeUnsupported c => .ptype8 c

/-- The `match` and `mask` of a command's row (spec/opcode_table.json, R62); none for a packet-type row. -/
def cmdRow : Instr → Option (CmdWord × CmdWord)
  | .crcInit => some (0x0100, 0xFFFF)
  | .crcUpd _ => some (0x0200, 0xFF00)
  | .crcRd => some (0x0300, 0xFFFF)
  | .frmPush _ => some (0x1000, 0xFF00)
  | .frmPop => some (0x1100, 0xFFFF)
  | .frmStat => some (0x1200, 0xFFFF)
  | .frmDec => some (0x1300, 0xFFFF)
  | .erp1Ext => some (0x2000, 0xFFFF)
  | .fldExt => some (0x2100, 0xFFFF)
  | .reset => some (0xFF00, 0xFFFF)
  | .ptypeRadioErp1 => none
  | .ptypeResponse => none
  | .ptypeUnsupported _ => none

/-- The code word of an opcode-table row of `nbits` bits whose bits are `w`: 16 bits are a command word, 8 bits a
packet-type byte, and the table has no other length (R64, 41_framer.md R120). -/
def tableCodeWord (nbits w : Nat) : Option CodeWord :=
  if nbits = 16 then some (.cmd16 (BitVec.ofNat 16 w))
  else if nbits = 8 then some (.ptype8 (BitVec.ofNat 8 w))
  else none

/-- The instruction the decoder reads from a table word. -/
def decodeTableWord (nbits w : Nat) : Option Instr :=
  match tableCodeWord nbits w with
  | none => none
  | some c => match decode c with
    | .ok i => some i
    | .error _ => none

end Sys2Proof
end

