-- ==== Sys2Proof/Machine/Records.lean ====
section
/-! DEFINITION. The records of 30_encoding.md Part D: packets, telegrams, error codes, results and responses, and the
values the host drives on the ports. Types only. -/

namespace Sys2Proof.Machine

/-- `PacketType` (30_encoding.md R80). -/
inductive PacketType where
  | radioErp1
  | response
  | unsupported (c : Byte)
  deriving DecidableEq, Repr

/-- `Esp3Packet` (30_encoding.md R80). -/
structure Esp3Packet where
  ptype : PacketType
  data : List Byte
  opt : List Byte
  deriving DecidableEq, Repr

/-- The named errors of 60_exceptions.md R201. -/
inductive ErrorCode where
  | syncByteMismatch
  | headerCrcMismatch
  | dataCrcMismatch
  | truncatedFrame
  | wrongPacketType
  | payloadTooShort
  /-- Reserved: the block never raises it (R201, 42_erp1.md R183). -/
  | unknownDevice
  | payloadBitRangeOutOfBounds
  deriving DecidableEq, Repr

/-- An entry of the result queue (10_state.md R24), and the result of a one-shot decode (41_framer.md R130). -/
inductive FrameResult where
  | ok (p : Esp3Packet)
  | err (e : ErrorCode)
  deriving DecidableEq, Repr

/-- `Erp1Telegram` (30_encoding.md R81). -/
structure Erp1Telegram where
  rorg : Byte
  payload : List Byte
  senderId : U32
  status : Byte
  subTelegramCount : Option Byte
  destinationId : Option U32
  rssiRaw : Option Byte
  rssiDbm : Option Int
  securityLevel : Option Byte
  deriving DecidableEq, Repr

/-- The response a command returns to the host (30_encoding.md R83). -/
inductive Response where
  /-- `Done`: CRC.INIT, CRC.UPD, RESET, and FRM.PUSH of an accepted byte. -/
  | done
  /-- `Busy`: FRM.PUSH of a byte that was not accepted. -/
  | busy
  /-- `Empty`: FRM.POP of an empty queue. -/
  | empty
  /-- The `u8` of CRC.RD. -/
  | crc (c : Byte)
  /-- The `u64` of FRM.STAT. -/
  | status (w : U64)
  /-- `Ok(Esp3Packet)` of FRM.POP and FRM.DEC. -/
  | packet (p : Esp3Packet)
  /-- `Ok(Erp1Telegram)` of ERP1.EXT. -/
  | telegram (t : Erp1Telegram)
  /-- `Ok(u32)` of FLD.EXT. -/
  | field (v : U32)
  /-- `Err(code)` of FRM.POP, FRM.DEC, ERP1.EXT and FLD.EXT. -/
  | err (e : ErrorCode)
  deriving DecidableEq, Repr

/-- The reasons of `refuse(reason)` (60_exceptions.md R207). -/
inductive RefusalReason where
  | reservedCommand
  | operandInvariant
  | fieldWidth
  deriving DecidableEq, Repr

/-- The framer mode (10_state.md R25). -/
inductive Mode where
  | seek
  | header
  | body
  | busy
  deriving DecidableEq, Repr

/-- The whole values on the operand ports (30_encoding.md R61). -/
structure Ports where
  frame : List Byte
  pkt : Esp3Packet
  payload : List Byte
  offset : BitVec 32
  width : BitVec 6
  deriving DecidableEq, Repr

/-- One thing that happens next, in the order chosen outside the block: a transaction of the host on the command port
with its operand ports (00_scope.md R5), a turn of the drain engine (41_framer.md R140), a byte presented to the
packet-type classifier (log entry 6), or a power-on reset (60_exceptions.md R217). A list of them is an interleaving of
the two agents (20_memory.md R46; log entries 1 and 2). -/
inductive Input where
  | command (w : CmdWord) (ports : Ports)
  | engine
  | ptype (b : Byte)
  | powerOn
  deriving DecidableEq, Repr

/-- What the last step showed outside the block (log entry 7): nothing, the response of the command it ran, the reason a
command was refused (which is no response, 60_exceptions.md R207), or the class of a presented packet-type byte. -/
inductive Output where
  | silent
  | answered (r : Response)
  | refusal (reason : RefusalReason)
  | classified (t : PacketType)
  deriving DecidableEq, Repr

end Sys2Proof.Machine
end

