-- ==== Sys2Proof/Machine/State.lean ====
section
/-! DEFINITION. The state of 10_state.md R20, the model's own fields beside it (ports, inputs, output, the built-in queue
depth), the reasons a step can stop, and the state after reset. -/

namespace Sys2Proof.Machine

/-- Machine faults. There are none: "The block has no traps. Every error it detects is a value" (60_exceptions.md R200),
and no rule reads out of range (20_memory.md R41). A type without constructors makes that part of the model's types. -/
inductive Fault where
  deriving DecidableEq, Repr

/-- Model refusals that end a run. The spec's own `refuse(reason)` is none of these: it is a next state with the mark
`State.refused` set (10_state.md R28, log entry 8). -/
inductive Refusal where
  /-- Raised by an arm of `exec` for an instruction without a meaning; no arm of this model raises it. Safe. -/
  | notModelled (mnemonic : String)
  deriving DecidableEq, Repr

/-- The state. `crc`, `fbuf`, `rq` and `refused` are the tuple `S` of 10_state.md R20; the framer mode and the status
word are functions of them (R25, R29) and are not stored. The other fields are the model's own. -/
structure State where
  /-- The CRC-8 accumulator (R21). -/
  crc : Byte
  /-- The framer buffer, oldest byte first (R22). -/
  fbuf : List Byte
  /-- The result queue, head first (R24). -/
  rq : List FrameResult
  /-- The model-only refusal mark (R28). -/
  refused : Bool
  /-- The `RQ_DEPTH` this machine was built with (R27); no step writes it (log entry 3). -/
  rqDepth : QueueDepth
  /-- The values on the operand ports during the command last issued (30_encoding.md R61); R30: not state of the block. -/
  ports : Ports
  /-- What happens next, head first (log entries 1 and 2). -/
  inbox : List Input
  /-- What the last step showed outside the block (log entry 7). -/
  out : Output
  deriving DecidableEq, Repr

/-- The port values before the host has driven any: a legal operand for every command (log entry 9). -/
def Ports.undriven : Ports :=
  { frame := [], pkt := { ptype := .radioErp1, data := [], opt := [] }, payload := [], offset := 0, width := 1 }

/-- The machine at launch, built with this queue depth (10_state.md R31, 70_reset_and_hazards.md R230). -/
def State.launch (depth : QueueDepth) : State :=
  { crc := 0x00, fbuf := [], rq := [], refused := false, rqDepth := depth, ports := Ports.undriven, inbox := [],
    out := .silent }

/-- The machine right after reset, built with an unbounded result queue (log entry 3). -/
def State.reset : State := State.launch .unbounded

end Sys2Proof.Machine
end

