-- ==== Sys2Proof/Machine/Ops.lean ====
section
/-! DEFINITION. The named operations the meanings share: byte sequences (00_scope.md R9), the CRC-8 function
(40_crc8.md R100), packet-type classification and the frame fields (30_encoding.md Part B), one-shot decode and the drain
step (41_framer.md), answering and refusing a command (00_scope.md R10), the block's reset, and taking the next input.
The block has no trap (60_exceptions.md R209, R210), so there is no exception entry and no return from one. -/

namespace Sys2Proof.Machine

/-! ### Byte sequences (R9) -/

/-- `s[i]` (R9). -/
def byteAt (s : List Byte) (i : Nat) : Byte := s.getD i Config.outOfRangeByte

/-- `slice(s, a, n)` (R9), which is `MemRead(s, a, n)` (20_memory.md R41). -/
def slice (s : List Byte) (a n : Nat) : List Byte := (s.drop a).take n

/-- `BE16(s, a)` (R9). -/
def be16 (s : List Byte) (a : Nat) : Nat := (byteAt s a).toNat * 256 + (byteAt s (a + 1)).toNat

/-- `BE32(s, a)` (R9), as the `u32` it is stored in (20_memory.md R42). -/
def be32 (s : List Byte) (a : Nat) : U32 := byteAt s a ++ byteAt s (a + 1) ++ byteAt s (a + 2) ++ byteAt s (a + 3)

/-! ### The CRC-8 function (40_crc8.md) -/

/-- `CRC_POLY` (00_scope.md R7; log entry 13). -/
def crcPoly : Byte := 0x07

/-- `CRC_INIT` (00_scope.md R7; log entry 13). -/
def crcInit : Byte := 0x00

/-- `TABLE` (40_crc8.md R102; log entry 13). -/
def crcTable : List Byte :=
  [0x00, 0x07, 0x0E, 0x09, 0x1C, 0x1B, 0x12, 0x15,
   0x38, 0x3F, 0x36, 0x31, 0x24, 0x23, 0x2A, 0x2D,
   0x70, 0x77, 0x7E, 0x79, 0x6C, 0x6B, 0x62, 0x65,
   0x48, 0x4F, 0x46, 0x41, 0x54, 0x53, 0x5A, 0x5D] ++
  [0xE0, 0xE7, 0xEE, 0xE9, 0xFC, 0xFB, 0xF2, 0xF5,
   0xD8, 0xDF, 0xD6, 0xD1, 0xC4, 0xC3, 0xCA, 0xCD,
   0x90, 0x97, 0x9E, 0x99, 0x8C, 0x8B, 0x82, 0x85,
   0xA8, 0xAF, 0xA6, 0xA1, 0xB4, 0xB3, 0xBA, 0xBD] ++
  [0xC7, 0xC0, 0xC9, 0xCE, 0xDB, 0xDC, 0xD5, 0xD2,
   0xFF, 0xF8, 0xF1, 0xF6, 0xE3, 0xE4, 0xED, 0xEA,
   0xB7, 0xB0, 0xB9, 0xBE, 0xAB, 0xAC, 0xA5, 0xA2,
   0x8F, 0x88, 0x81, 0x86, 0x93, 0x94, 0x9D, 0x9A] ++
  [0x27, 0x20, 0x29, 0x2E, 0x3B, 0x3C, 0x35, 0x32,
   0x1F, 0x18, 0x11, 0x16, 0x03, 0x04, 0x0D, 0x0A,
   0x57, 0x50, 0x59, 0x5E, 0x4B, 0x4C, 0x45, 0x42,
   0x6F, 0x68, 0x61, 0x66, 0x73, 0x74, 0x7D, 0x7A] ++
  [0x89, 0x8E, 0x87, 0x80, 0x95, 0x92, 0x9B, 0x9C,
   0xB1, 0xB6, 0xBF, 0xB8, 0xAD, 0xAA, 0xA3, 0xA4,
   0xF9, 0xFE, 0xF7, 0xF0, 0xE5, 0xE2, 0xEB, 0xEC,
   0xC1, 0xC6, 0xCF, 0xC8, 0xDD, 0xDA, 0xD3, 0xD4] ++
  [0x69, 0x6E, 0x67, 0x60, 0x75, 0x72, 0x7B, 0x7C,
   0x51, 0x56, 0x5F, 0x58, 0x4D, 0x4A, 0x43, 0x44,
   0x19, 0x1E, 0x17, 0x10, 0x05, 0x02, 0x0B, 0x0C,
   0x21, 0x26, 0x2F, 0x28, 0x3D, 0x3A, 0x33, 0x34] ++
  [0x4E, 0x49, 0x40, 0x47, 0x52, 0x55, 0x5C, 0x5B,
   0x76, 0x71, 0x78, 0x7F, 0x6A, 0x6D, 0x64, 0x63,
   0x3E, 0x39, 0x30, 0x37, 0x22, 0x25, 0x2C, 0x2B,
   0x06, 0x01, 0x08, 0x0F, 0x1A, 0x1D, 0x14, 0x13] ++
  [0xAE, 0xA9, 0xA0, 0xA7, 0xB2, 0xB5, 0xBC, 0xBB,
   0x96, 0x91, 0x98, 0x9F, 0x8A, 0x8D, 0x84, 0x83,
   0xDE, 0xD9, 0xD0, 0xD7, 0xC2, 0xC5, 0xCC, 0xCB,
   0xE6, 0xE1, 0xE8, 0xEF, 0xFA, 0xFD, 0xF4, 0xF3]

/-- One table step: the accumulator after absorbing a byte (R100, R105). -/
def crcAbsorb (c b : Byte) : Byte := byteAt crcTable (c ^^^ b).toNat

/-- The fold of R100 from a given starting value. -/
def crc8From (c : Byte) (s : List Byte) : Byte := s.foldl crcAbsorb c

/-- `CRC8(s)` (R100). -/
def crc8 (s : List Byte) : Byte := crc8From crcInit s

/-- One bit of the feedback loop of R101. -/
def crcShift (c : Byte) : Byte := if c.msb then (c <<< 1) ^^^ crcPoly else c <<< 1

/-- One byte of the bit-serial form: XOR, then eight shifts (R101). -/
def crcSerialByte (c b : Byte) : Byte :=
  crcShift (crcShift (crcShift (crcShift (crcShift (crcShift (crcShift (crcShift (c ^^^ b))))))))

/-- The bit-serial form of `CRC8` (R101). -/
def crc8Serial (s : List Byte) : Byte := s.foldl crcSerialByte crcInit

/-! ### Packet types and error codes -/

/-- `Classify` (41_framer.md R120, 30_encoding.md R74). -/
def classify (c : Byte) : PacketType :=
  if c = 0x01 then .radioErp1 else if c = 0x02 then .response else .unsupported c

/-- `Code`, the packet-type byte of a packet type (30_encoding.md R80). -/
def ptypeCode : PacketType → Byte
  | .radioErp1 => 0x01
  | .response => 0x02
  | .unsupported c => c

/-- The 8-bit code of a named error (60_exceptions.md R201; log entry 14). -/
def errorCodeByte : ErrorCode → Byte
  | .syncByteMismatch => 0x01
  | .headerCrcMismatch => 0x02
  | .dataCrcMismatch => 0x03
  | .truncatedFrame => 0x04
  | .wrongPacketType => 0x11
  | .payloadTooShort => 0x12
  | .unknownDevice => 0x21
  | .payloadBitRangeOutOfBounds => 0x22

/-! ### Frame fields (30_encoding.md R70 to R73), read from a sequence whose byte 0 is the candidate sync byte -/

/-- `HdrOK(b)` (41_framer.md R141). -/
def hdrOK (b : List Byte) : Bool := decide (6 ≤ b.length) && (crc8 (slice b 1 4) == byteAt b 5)

/-- `DL = BE16(b, 1)` (30_encoding.md R71). -/
def dataLen (b : List Byte) : Nat := be16 b 1

/-- `OL = b[3]` (30_encoding.md R71). -/
def optLen (b : List Byte) : Nat := (byteAt b 3).toNat

/-- `N = DL + OL` (30_encoding.md R72). -/
def bodyLen (b : List Byte) : Nat := dataLen b + optLen b

/-- `FrameLen(b) = 7 + DL + OL` (30_encoding.md R73). -/
def frameLen (b : List Byte) : Nat := 7 + dataLen b + optLen b

/-- The data CRC check over `data ++ optional_data` (30_encoding.md R72). -/
def bodyCrcOK (b : List Byte) : Bool := crc8 (slice b 6 (bodyLen b)) == byteAt b (6 + bodyLen b)

/-- The packet a complete valid frame carries (41_framer.md R130, R142 case D). -/
def packetOf (b : List Byte) : Esp3Packet :=
  { ptype := classify (byteAt b 4), data := slice b 6 (dataLen b), opt := slice b (6 + dataLen b) (optLen b) }

/-- The one-shot decode of FRM.DEC, check by check in the order of 41_framer.md R130 (60_exceptions.md R204). -/
def decodeFrame (f : List Byte) : FrameResult :=
  if f.length = 0 then .err .truncatedFrame
  else if byteAt f 0 ≠ Config.sync then .err .syncByteMismatch
  else if f.length < 6 then .err .truncatedFrame
  else if crc8 (slice f 1 4) ≠ byteAt f 5 then .err .headerCrcMismatch
  else if f.length < 7 + bodyLen f then .err .truncatedFrame
  else if bodyCrcOK f = false then .err .dataCrcMismatch
  else .ok (packetOf f)

/-- `Ser(p)`, the reference serializer (41_framer.md R160); no command of the block. -/
def ser (p : Esp3Packet) : List Byte :=
  let h : List Byte :=
    [BitVec.ofNat 8 (p.data.length / 256), BitVec.ofNat 8 p.data.length, BitVec.ofNat 8 p.opt.length, ptypeCode p.ptype]
  [Config.sync] ++ h ++ [crc8 h] ++ p.data ++ p.opt ++ [crc8 (p.data ++ p.opt)]

/-! ### The drain engine (41_framer.md §3) -/

/-- `NeedsWork(b)` (R141). -/
def needsWork (b : List Byte) : Bool :=
  (decide (1 ≤ b.length) && byteAt b 0 != Config.sync)
    || (decide (6 ≤ b.length) && byteAt b 0 == Config.sync && !hdrOK b)
    || (decide (6 ≤ b.length) && byteAt b 0 == Config.sync && hdrOK b && decide (frameLen b ≤ b.length))

/-- The cases of R142. -/
inductive DrainCase where
  /-- Case A. -/
  | skip
  /-- Case B. -/
  | badHeader
  /-- Case C. -/
  | badData
  /-- Case D. -/
  | packet
  deriving DecidableEq, Repr

/-- The case of R142 that applies to a buffer, if one does. -/
def drainCase (b : List Byte) : Option DrainCase :=
  if b.length = 0 then none
  else if byteAt b 0 ≠ Config.sync then some .skip
  else if b.length < 6 then none
  else if hdrOK b = false then some .badHeader
  else if b.length < frameLen b then none
  else if bodyCrcOK b = false then some .badData
  else some .packet

/-- `|rq| < RQ_DEPTH` (R142). -/
def hasRoom (depth : QueueDepth) (q : List FrameResult) : Bool :=
  match depth with
  | .unbounded => true
  | .bounded n => decide (q.length < n)

/-- `emit(r)` (00_scope.md R10). -/
def emit (r : FrameResult) (q : List FrameResult) : List FrameResult := q ++ [r]

/-- What a case emits, if it emits (R142, R143, R145, R146). -/
def drainEmission (c : DrainCase) (b : List Byte) : Option FrameResult :=
  match c with
  | .skip => none
  | .badHeader => some (.err .headerCrcMismatch)
  | .badData => some (.err .dataCrcMismatch)
  | .packet => some (.ok (packetOf b))

/-- How many bytes a case removes from the front: the whole frame for a packet, else one (R142, R145, R146). -/
def drainRemoves (c : DrainCase) (b : List Byte) : Nat :=
  match c with
  | .skip => 1
  | .badHeader => 1
  | .badData => 1
  | .packet => frameLen b

/-- `DrainStep` on `(fbuf, rq)`; none when no step is enabled, which for an emitting case includes a full queue (R142). -/
def drainStep (depth : QueueDepth) (b : List Byte) (q : List FrameResult) : Option (List Byte × List FrameResult) :=
  match drainCase b with
  | none => none
  | some c => match drainEmission c b with
    | none => some (b.drop (drainRemoves c b), q)
    | some r => if hasRoom depth q then some (b.drop (drainRemoves c b), emit r q) else none

/-- `Drain(fbuf, rq)` with a bound on the number of steps (R151). -/
def drainSteps : Nat → List Byte → List FrameResult → List Byte × List FrameResult
  | 0, b, q => (b, q)
  | n + 1, b, q => match drainStep .unbounded b q with
    | none => (b, q)
    | some (b', q') => drainSteps n b' q'

/-- `Drain(fbuf, rq)`: as many steps as it takes, which is at most `|fbuf|` (R148, R151). -/
def drain (b : List Byte) (q : List FrameResult) : List Byte × List FrameResult := drainSteps b.length b q

/-- `PushAtomic((fbuf, rq), b)` (R151). -/
def pushAtomic (fbuf : List Byte) (rq : List FrameResult) (b : Byte) : List Byte × List FrameResult :=
  drain (fbuf ++ [b]) rq

/-! ### Outcomes of a command, the engine's turn, reset -/

/-- `return r`: the command's response reaches the host (00_scope.md R10). -/
def answer (r : Response) (s : State) : Host.Outcome State Fault Refusal := .next { s with out := .answered r }

/-- `refuse(reason)`: the refusal mark is set, nothing else of the block changes and no response is returned (00_scope.md
R10, 60_exceptions.md R207; log entry 8). -/
def refuse (reason : RefusalReason) (s : State) : Host.Outcome State Fault Refusal :=
  .next { s with refused := true, out := .refusal reason }

/-- The response that delivers a frame result (30_encoding.md R83). -/
def resultResponse : FrameResult → Response
  | .ok p => .packet p
  | .err e => .err e

/-- A turn of the drain engine: one drain step if one is enabled, else nothing (41_framer.md R140, R142). -/
def engineTurn (s : State) : State :=
  match drainStep s.rqDepth s.fbuf s.rq with
  | none => { s with out := .silent }
  | some (b, q) => { s with fbuf := b, rq := q, out := .silent }

/-- The assignment RESET and power-on reset share (70_reset_and_hazards.md R230). -/
def resetBlock (s : State) : State := { s with crc := crcInit, fbuf := [], rq := [] }

/-- A packet-type byte's class is shown; nothing of the block changes (log entry 6). -/
def showClass (t : PacketType) (s : State) : Host.Outcome State Fault Refusal := .next { s with out := .classified t }

/-! ### Taking the next input -/

/-- What the step is to do. -/
inductive Action where
  | engine
  | powerOn
  | run (c : CodeWord)
  deriving DecidableEq, Repr

/-- Take the head of the inbox and drive the ports of a command. With nothing from outside pending, the turn is the
engine's (log entries 1 and 2). -/
def takeInput (s : State) : Action × State :=
  match s.inbox with
  | [] => (.engine, s)
  | .engine :: rest => (.engine, { s with inbox := rest })
  | .powerOn :: rest => (.powerOn, { s with inbox := rest })
  | .ptype b :: rest => (.run (.ptype8 b), { s with inbox := rest })
  | .command w ports :: rest => (.run (.cmd16 w), { s with inbox := rest, ports := ports })

/-- The input that brings a code word next: a command comes with the port values as they stand. -/
def inputOf (c : CodeWord) (ports : Ports) : Input :=
  match c with
  | .cmd16 w => .command w ports
  | .ptype8 b => .ptype b

end Sys2Proof.Machine
end

