-- ==== Sys2Proof/Machine/Operands.lean ====
section
/-! DEFINITION. The operand forms: whole values on the ports (30_encoding.md R61), their invariants (R82, 42_erp1.md R181),
the positivity of RQ_DEPTH (00_scope.md R7), and the bits of a payload (20_memory.md R43). -/

namespace Sys2Proof.Machine

/-- Port FRAME, read by FRM.DEC (R61). -/
def framePort (s : State) : List Byte := s.ports.frame

/-- Port PKT, read by ERP1.EXT (R61). -/
def pktPort (s : State) : Esp3Packet := s.ports.pkt

/-- Port PAYLOAD, read by FLD.EXT (R61). -/
def payloadPort (s : State) : List Byte := s.ports.payload

/-- Port OFFSET: a `u32` taken as a natural number, so that `off + w` never wraps (30_encoding.md R63). -/
def offsetPort (s : State) : Nat := s.ports.offset.toNat

/-- Port WIDTH: a 6-bit unsigned number (30_encoding.md R63). -/
def widthPort (s : State) : Nat := s.ports.width.toNat

/-- A packet type `Classify` can produce (30_encoding.md R82). -/
def ptypeOk : PacketType → Bool
  | .radioErp1 => true
  | .response => true
  | .unsupported c => c != 0x01 && c != 0x02

/-- The operand invariant of a PKT value (30_encoding.md R82). -/
def pktOk (p : Esp3Packet) : Bool :=
  decide (p.data.length ≤ Config.maxDataLen) && decide (p.opt.length ≤ Config.maxOptLen) && ptypeOk p.ptype

/-- A legal field width, `1 .. MAX_FIELD_WIDTH` (42_erp1.md R181). -/
def widthOk (w : Nat) : Bool := decide (1 ≤ w) && decide (w ≤ Config.maxFieldWidth)

/-- A queue depth R7 allows: unbounded or positive. -/
def queueDepthOk : QueueDepth → Bool
  | .unbounded => true
  | .bounded n => decide (0 < n)

/-- The EnOcean data byte `DB(k)` of a payload: `payload[j]` is `DB(n-1-j)` (30_encoding.md R78). No computation uses it. -/
def dbByte (p : List Byte) (k : Nat) : Byte := byteAt p (p.length - 1 - k)

/-- Bit offset `i` of a payload: bit `7 - (i mod 8)` of byte `P[i div 8]` (20_memory.md R43). -/
def payloadBit (p : List Byte) (i : Nat) : Nat := ((byteAt p (i / 8)).toNat >>> (7 - i % 8)) % 2

/-- The value `v` of FLD.EXT's loop after `k` turns, MSB first (42_erp1.md R180). -/
def fieldValue (p : List Byte) (off : Nat) : Nat → Nat
  | 0 => 0
  | k + 1 => fieldValue p off k * 2 + payloadBit p (off + k)

end Sys2Proof.Machine
end

