-- ==== Sys2Proof/Machine/Flags.lean ====
section
/-! DEFINITION. The framer mode and the status word, computed from the state (10_state.md R25, R29). The block has no
condition flags (R26). -/

namespace Sys2Proof.Machine

/-- `Mode(fbuf)` (R25). -/
def frameMode (b : List Byte) : Mode :=
  if needsWork b then .busy
  else if b.length = 0 then .seek
  else if b.length < 6 then .header
  else .body

/-- `Need(fbuf)` (R25). -/
def frameNeed (b : List Byte) : Nat :=
  match frameMode b with
  | .busy => 0
  | .seek => 0
  | .header => 6 - b.length
  | .body => frameLen b - b.length

/-- The code of a mode in `STATUS[1:0]` (R29). -/
def modeCode : Mode → BitVec 2
  | .seek => 0
  | .header => 1
  | .body => 2
  | .busy => 3

/-- `RQ_NE` (R29). -/
def rqNonEmpty (q : List FrameResult) : Bool := decide (q.length ≠ 0)

/-- `RQ_FULL` (R29): `|rq| = RQ_DEPTH`, always false when unbounded. -/
def rqFull (depth : QueueDepth) (q : List FrameResult) : Bool :=
  match depth with
  | .unbounded => false
  | .bounded n => decide (q.length = n)

/-- `STATUS` (R29), as 41_framer.md R153 concatenates it (log entries 14 and 17). -/
def statusWord (s : State) : U64 :=
  0#15 ++ BitVec.ofNat 17 (frameNeed s.fbuf) ++ 0#7 ++ BitVec.ofNat 17 s.fbuf.length ++ 0#4
    ++ BitVec.ofBool (rqFull s.rqDepth s.rq) ++ BitVec.ofBool (rqNonEmpty s.rq) ++ modeCode (frameMode s.fbuf)

end Sys2Proof.Machine
end

