-- ==== Sys2Proof/Machine/Crc8.lean ====
section
/-! DEFINITION. The CRC accumulator commands (40_crc8.md §2). -/

namespace Sys2Proof.Machine

/-- `CRC.INIT` (R104). -/
def execCrcInit (s : State) : Host.Outcome State Fault Refusal := answer .done { s with crc := crcInit }

/-- `CRC.UPD #b` (R105). -/
def execCrcUpd (b : Byte) (s : State) : Host.Outcome State Fault Refusal :=
  answer .done { s with crc := crcAbsorb s.crc b }

/-- `CRC.RD` (R106). -/
def execCrcRd (s : State) : Host.Outcome State Fault Refusal := answer (.crc s.crc) s

end Sys2Proof.Machine
end

