-- ==== Sys2Proof/Machine/Erp1.lean ====
section
/-! DEFINITION. The ERP1 extractor commands (42_erp1.md). -/

namespace Sys2Proof.Machine

/-- A field of the optional data, present only when all its bytes are (30_encoding.md R77, 42_erp1.md R172). -/
def optField (need : Nat) (o : List Byte) (v : α) : Option α := if need ≤ o.length then some v else none

/-- The telegram fields of a RADIO_ERP1 packet's data and optional data (42_erp1.md R170, R171). -/
def telegramOf (d o : List Byte) : Erp1Telegram :=
  { rorg := byteAt d 0
    payload := slice d 1 (d.length - 6)
    senderId := be32 d (d.length - 5)
    status := byteAt d (d.length - 1)
    subTelegramCount := optField 1 o (byteAt o 0)
    destinationId := optField 5 o (be32 o 1)
    rssiRaw := optField 6 o (byteAt o 5)
    rssiDbm := optField 6 o (Config.rssiInterp (byteAt o 5))
    securityLevel := optField 7 o (byteAt o 6) }

/-- The response of ERP1.EXT to a legal packet: type first, then length (60_exceptions.md R205). -/
def extractErp1 (p : Esp3Packet) : Response :=
  if p.ptype ≠ .radioErp1 then .err .wrongPacketType
  else if p.data.length < Config.minErp1DataLen then .err .payloadTooShort
  else .telegram (telegramOf p.data p.opt)

/-- `ERP1.EXT` (R170). -/
def execErp1Ext (s : State) : Host.Outcome State Fault Refusal :=
  if pktOk (pktPort s) then answer (extractErp1 (pktPort s)) s else refuse .operandInvariant s

/-- The response of FLD.EXT to a legal width (R180). -/
def extractField (p : List Byte) (off w : Nat) : Response :=
  if 8 * p.length < off + w then .err .payloadBitRangeOutOfBounds
  else .field (BitVec.ofNat 32 (fieldValue p off w))

/-- `FLD.EXT` (R180, R181). -/
def execFldExt (s : State) : Host.Outcome State Fault Refusal :=
  if widthOk (widthPort s) then answer (extractField (payloadPort s) (offsetPort s) (widthPort s)) s
  else refuse .fieldWidth s

end Sys2Proof.Machine
end

