-- ==== Sys2Proof/Machine/Framer.lean ====
section
/-! DEFINITION. The framer commands (41_framer.md §2, §4). -/

namespace Sys2Proof.Machine

/-- `FRM.PUSH #b` (R150). -/
def execFrmPush (b : Byte) (s : State) : Host.Outcome State Fault Refusal :=
  if needsWork s.fbuf || decide (Config.bufCap ≤ s.fbuf.length) then answer .busy s
  else answer .done { s with fbuf := s.fbuf ++ [b] }

/-- `FRM.POP` (R152). -/
def execFrmPop (s : State) : Host.Outcome State Fault Refusal :=
  match s.rq with
  | [] => answer .empty s
  | r :: rest => answer (resultResponse r) { s with rq := rest }

/-- `FRM.STAT` (R153). -/
def execFrmStat (s : State) : Host.Outcome State Fault Refusal := answer (.status (statusWord s)) s

/-- `FRM.DEC` (R130). -/
def execFrmDec (s : State) : Host.Outcome State Fault Refusal :=
  answer (resultResponse (decodeFrame (framePort s))) s

end Sys2Proof.Machine
end

