-- ==== Sys2Proof/Machine/Ptype.lean ====
section
/-! DEFINITION. The packet-type rows of the opcode table: the class `Classify` gives the byte (41_framer.md R120). The
framer and FRM.DEC classify with the same function (`packetOf`). -/

namespace Sys2Proof.Machine

/-- Row `PTYPE RadioErp1` (R120, 30_encoding.md R74). -/
def execPtypeRadioErp1 (s : State) : Host.Outcome State Fault Refusal := showClass (classify 0x01) s

/-- Row `PTYPE Response` (R120, 30_encoding.md R74). -/
def execPtypeResponse (s : State) : Host.Outcome State Fault Refusal := showClass (classify 0x02) s

/-- Row `PTYPE Unsupported(c)` (R120, 30_encoding.md R75): no error, the code is kept. -/
def execPtypeUnsupported (c : Byte) (s : State) : Host.Outcome State Fault Refusal := showClass (classify c) s

end Sys2Proof.Machine
end

