-- ==== Sys2Proof/Machine/Reset.lean ====
section
/-! DEFINITION. RESET and power-on reset (70_reset_and_hazards.md §1). -/

namespace Sys2Proof.Machine

/-- `RESET` (R230): the refusal mark is kept (10_state.md R28). -/
def execReset (s : State) : Host.Outcome State Fault Refusal := answer .done (resetBlock s)

/-- Power-on reset of a block that has run before (60_exceptions.md R217): RESET's assignment, and no response. The
refusal mark is false only at launch (10_state.md R31, `State.launch`; log entry 10). -/
def powerOnReset (s : State) : State := { resetBlock s with out := .silent }

end Sys2Proof.Machine
end

