-- ==== Sys2Proof/Machine/Dispatch.lean ====
section
/-! DEFINITION. One arm per instruction. -/

namespace Sys2Proof.Machine

def exec (i : Instr) (s : State) : Host.Outcome State Fault Refusal :=
  match i with
  | .crcInit => Sys2Proof.Machine.execCrcInit s
  | .crcUpd b => Sys2Proof.Machine.execCrcUpd b s
  | .crcRd => Sys2Proof.Machine.execCrcRd s
  | .frmPush b => Sys2Proof.Machine.execFrmPush b s
  | .frmPop => Sys2Proof.Machine.execFrmPop s
  | .frmStat => Sys2Proof.Machine.execFrmStat s
  | .frmDec => Sys2Proof.Machine.execFrmDec s
  | .erp1Ext => Sys2Proof.Machine.execErp1Ext s
  | .fldExt => Sys2Proof.Machine.execFldExt s
  | .reset => Sys2Proof.Machine.execReset s
  | .ptypeRadioErp1 => Sys2Proof.Machine.execPtypeRadioErp1 s
  | .ptypeResponse => Sys2Proof.Machine.execPtypeResponse s
  | .ptypeUnsupported c => Sys2Proof.Machine.execPtypeUnsupported c s

end Sys2Proof.Machine
end

