-- ==== Sys2Proof/Machine/Step.lean ====
section
/-! DEFINITION. One step: the next input is taken; a code word is decoded and run; a reserved word is refused
(30_encoding.md R66); the engine takes its turn (41_framer.md R140); or the block is powered on again. -/

namespace Sys2Proof.Machine

/-- One indivisible transaction or drain step (20_memory.md R46; log entries 15 and 16). -/
def step (s : State) : Host.Outcome State Fault Refusal :=
  match takeInput s with
  | (.engine, t) => .next (engineTurn t)
  | (.powerOn, t) => .next (powerOnReset t)
  | (.run c, t) => match decode c with
    | .ok i => exec i t
    | .error _ => refuse .reservedCommand t

/-- The state whose next input is this opcode-table word, with the port values as they stand (log entry 11). -/
def State.withFetchWord (s : State) (nbits w : Nat) : State :=
  match tableCodeWord nbits w with
  | none => s
  | some c => { s with inbox := inputOf c s.ports :: s.inbox }

end Sys2Proof.Machine
end

