-- ==== Sys2Proof/Machine/HostProgram.lean ====
section
/-! DEFINITION. The host's side of the command port: assembly lines (30_encoding.md R67), the pseudo-instructions and the
host's loops that expand them (R68). Control flow belongs to the host (R84); these definitions drive `step` and add
nothing to it. -/

namespace Sys2Proof.Machine

/-- A line of a program (R67, R68); `word` is the raw `.word` line of 95_test_vectors.md P6. -/
inductive AsmLine where
  | crcInit
  | crcUpd (b : Byte)
  | crcRd
  | frmPush (b : Byte)
  | frmPop
  | frmStat
  | frmDec (frame : List Byte)
  | erp1Ext (pkt : Esp3Packet)
  | fldExt (payload : List Byte) (offset : BitVec 32) (width : BitVec 6)
  | reset
  | crcCalc (bytes : List Byte)
  | frmFeed (bytes : List Byte)
  | frmWait
  | word (w : CmdWord)
  deriving DecidableEq, Repr

/-- The command word of an instruction with no packet-type byte in it; a packet-type row has none. -/
def commandWord (i : Instr) : Option CmdWord :=
  match encode i with
  | .cmd16 w => some w
  | .ptype8 _ => none

/-- One transaction of this instruction with these port values (00_scope.md R5). -/
def issue (i : Instr) (ports : Ports) : List Input :=
  match commandWord i with
  | some w => [.command w ports]
  | none => []

/-- The transactions a line stands for when no push is answered `Busy` and a wait reads the status once; the loops are
`frmFeed` and `frmWait` below. A line drives only the ports its command reads (R61). -/
def assemble (ports : Ports) : AsmLine → List Input
  | .crcInit => issue .crcInit ports
  | .crcUpd b => issue (.crcUpd b) ports
  | .crcRd => issue .crcRd ports
  | .frmPush b => issue (.frmPush b) ports
  | .frmPop => issue .frmPop ports
  | .frmStat => issue .frmStat ports
  | .frmDec f => issue .frmDec { ports with frame := f }
  | .erp1Ext p => issue .erp1Ext { ports with pkt := p }
  | .fldExt p o w => issue .fldExt { ports with payload := p, offset := o, width := w }
  | .reset => issue .reset ports
  | .crcCalc bs => issue .crcInit ports ++ bs.flatMap (fun b => issue (.crcUpd b) ports) ++ issue .crcRd ports
  | .frmFeed bs => bs.flatMap (fun b => issue (.frmPush b) ports)
  | .frmWait => issue .frmStat ports
  | .word w => [.command w ports]

/-- The state after these inputs, taken before anything already in the inbox; none if a step ended the run. -/
def feedInputs : List Input → State → Option State
  | [], s => some s
  | x :: xs, s => match step { s with inbox := x :: s.inbox } with
    | .next t => feedInputs xs t
    | .fault _ => none
    | .refused _ => none

/-- `FRM.FEED` of one byte: the push is re-issued until it answers `Done`, with a turn of the engine between attempts
(R68, 41_framer.md R150; log entry 12); none when the attempts run out. -/
def frmFeedByte : Nat → Byte → State → Option State
  | 0, _, _ => none
  | n + 1, b, s => match feedInputs (issue (.frmPush b) s.ports) s with
    | none => none
    | some t => if t.out = .answered .done then some t
      else match feedInputs [.engine] t with
        | none => none
        | some u => frmFeedByte n b u

/-- `FRM.FEED [b0 ... bn]` with at most `n` attempts a byte (R68). -/
def frmFeed (n : Nat) : List Byte → State → Option State
  | [], s => some s
  | b :: bs, s => match frmFeedByte n b s with
    | none => none
    | some t => frmFeed n bs t

/-- `STATUS[1:0] = 3` in the response just returned (10_state.md R29). -/
def answeredBusyMode (s : State) : Bool :=
  match s.out with
  | .answered (.status w) => w.extractLsb' 0 2 == 3#2
  | _ => false

/-- `FRM.WAIT`: FRM.STAT repeated until `STATUS[1:0] != 3`, with a turn of the engine between readings (R68, 20_memory.md
R53; log entry 12); none when the attempts run out, as with a full queue nobody pops. -/
def frmWait : Nat → State → Option State
  | 0, _ => none
  | n + 1, s => match feedInputs (issue .frmStat s.ports) s with
    | none => none
    | some t => if answeredBusyMode t = false then some t
      else match feedInputs [.engine] t with
        | none => none
        | some u => frmWait n u

/-! ### The text of a line (R67) -/

/-- A hexadecimal digit. -/
def hexDigit (n : Nat) : Char := if n < 10 then Char.ofNat (48 + n) else Char.ofNat (55 + n)

/-- A byte as two hexadecimal digits. -/
def hexByte (b : Byte) : String := String.ofList [hexDigit (b.toNat / 16), hexDigit (b.toNat % 16)]

/-- A byte literal `#0xNN`. -/
def byteLiteral (b : Byte) : String := "#0x" ++ hexByte b

/-- A byte sequence as a bracketed list of byte literals. -/
def byteListText (bs : List Byte) : String := "[" ++ String.intercalate " " (bs.map hexByte) ++ "]"

/-- A packet type as R67 writes it. -/
def ptypeText : PacketType → String
  | .radioErp1 => "RadioErp1"
  | .response => "Response"
  | .unsupported c => "Unsupported(0x" ++ hexByte c ++ ")"

/-- A packet as R67 writes it, between braces. -/
def pktText (p : Esp3Packet) : String :=
  String.singleton (Char.ofNat 123) ++ ptypeText p.ptype ++ ", " ++ byteListText p.data ++ ", " ++ byteListText p.opt
    ++ String.singleton (Char.ofNat 125)

/-- The text of a line (R67, R68). -/
def lineText : AsmLine → String
  | .crcInit => "CRC.INIT"
  | .crcUpd b => "CRC.UPD " ++ byteLiteral b
  | .crcRd => "CRC.RD"
  | .frmPush b => "FRM.PUSH " ++ byteLiteral b
  | .frmPop => "FRM.POP"
  | .frmStat => "FRM.STAT"
  | .frmDec f => "FRM.DEC " ++ byteListText f
  | .erp1Ext p => "ERP1.EXT " ++ pktText p
  | .fldExt p o w => "FLD.EXT " ++ byteListText p ++ ", #" ++ toString o.toNat ++ ", #" ++ toString w.toNat
  | .reset => "RESET"
  | .crcCalc bs => "CRC.CALC " ++ byteListText bs
  | .frmFeed bs => "FRM.FEED " ++ byteListText bs
  | .frmWait => "FRM.WAIT"
  | .word w => ".word 0x" ++ hexByte (cmdOp w) ++ hexByte (cmdImm w)

end Sys2Proof.Machine
end

