-- ==== Sys2Proof/Safety.lean ====
section
/-! DEFINITION. What claims are stated in: runs of steps, what a run showed, which instruction a state runs next, the
invariant of every reachable state, and which runs are evidence about the hardware. -/

namespace Sys2Proof.Machine

/-- `n` steps; none if a step ended the run. -/
def runSteps : Nat → State → Option State
  | 0, s => some s
  | n + 1, s => match step s with
    | .next t => runSteps n t
    | .fault _ => none
    | .refused _ => none

/-- What `n` steps showed outside the block, in order; shorter if a step ended the run. -/
def transcript : Nat → State → List Output
  | 0, _ => []
  | n + 1, s => match step s with
    | .next t => t.out :: transcript n t
    | .fault _ => []
    | .refused _ => []

/-- The instruction an input brings, if its word has a meaning. -/
def inputInstr : Input → Option Instr
  | .command w _ => match decode (.cmd16 w) with
    | .ok i => some i
    | .error _ => none
  | .ptype b => some (decodePtype b)
  | .engine => none
  | .powerOn => none

/-- The instruction the next step runs, if it runs one. -/
def nextInstr (s : State) : Option Instr :=
  match s.inbox with
  | [] => none
  | x :: _ => inputInstr x

/-- The next step is a turn of the drain engine. -/
def engineNext (s : State) : Bool :=
  match s.inbox with
  | [] => true
  | x :: _ => x == .engine

/-- The next step is a power-on reset. -/
def powerOnNext (s : State) : Bool :=
  match s.inbox with
  | [] => false
  | x :: _ => x == .powerOn

/-- An input that clears the block: RESET or power-on (70_reset_and_hazards.md R230). -/
def clearsBlock (x : Input) : Bool := x == .powerOn || inputInstr x == some .reset

/-- An input that sets `crc` to a value of its own: CRC.INIT, RESET or power-on (40_crc8.md R107). -/
def restartsCrc (x : Input) : Bool := clearsBlock x || inputInstr x == some .crcInit

/-- The byte an input absorbs into `crc`, as a list of at most one. -/
def absorbedByte (x : Input) : List Byte :=
  match inputInstr x with
  | some (.crcUpd b) => [b]
  | _ => []

/-- A result the queue may hold: a packet `Classify` can produce within the header's lengths, or one of the two CRC errors
(10_state.md R24, 30_encoding.md R82). -/
def resultOk : FrameResult → Bool
  | .ok p => pktOk p
  | .err e => e == .headerCrcMismatch || e == .dataCrcMismatch

/-- `|rq|` does not exceed `RQ_DEPTH` (10_state.md R24). -/
def queueWithin (depth : QueueDepth) (q : List FrameResult) : Bool :=
  match depth with
  | .unbounded => true
  | .bounded n => decide (q.length ≤ n)

/-- The invariant of every reachable state: the buffer bound (70_reset_and_hazards.md R241), the queue's capacity and
entries (10_state.md R24), and a queue depth R7 allows. -/
def invariant (s : State) : Bool :=
  decide (s.fbuf.length ≤ Config.bufCap) && queueWithin s.rqDepth s.rq && s.rq.all resultOk && queueDepthOk s.rqDepth

/-- `invariant` as a proposition. -/
abbrev StateOk (s : State) : Prop := invariant s = true

/-- A run's state is evidence about the hardware only while nothing was refused (10_state.md R28; log entry 8). -/
abbrev Evidence (s : State) : Prop := s.refused = false

/-- What a stream saw: the bytes the framer accepted, the results popped, and the state now (41_framer.md R158). -/
structure Trace where
  pushed : List Byte
  popped : List FrameResult
  now : State
  deriving DecidableEq, Repr

/-- The byte a step from `s` to `t` pushed, if FRM.PUSH answered `Done`. -/
def pushedBy (s t : State) : List Byte :=
  match nextInstr s with
  | some (.frmPush b) => if t.out = .answered .done then [b] else []
  | _ => []

/-- The result a step from `s` to `t` popped, if FRM.POP delivered one. -/
def poppedBy (s t : State) : List FrameResult :=
  match nextInstr s with
  | some .frmPop => match t.out with
    | .answered (.packet p) => [.ok p]
    | .answered (.err e) => [.err e]
    | _ => []
  | _ => []

/-- One step, observed. -/
def traceStep (tr : Trace) : Trace :=
  match step tr.now with
  | .next t => { pushed := tr.pushed ++ pushedBy tr.now t, popped := tr.popped ++ poppedBy tr.now t, now := t }
  | .fault _ => tr
  | .refused _ => tr

/-- `n` observed steps from a state. -/
def traceRun : Nat → State → Trace
  | 0, s => { pushed := [], popped := [], now := s }
  | n + 1, s => traceStep (traceRun n s)

/-- A framer with nothing in it, about to see no RESET or power-on: where a stream starts. -/
abbrev StreamStart (s : State) : Prop :=
  s.fbuf = [] ∧ s.rq = [] ∧ ∀ x ∈ s.inbox, clearsBlock x = false

/-- The drain engine is idle (41_framer.md R141). -/
abbrev Idle (b : List Byte) : Prop := needsWork b = false

end Sys2Proof.Machine
end

