-- ==== Sys2Proof/Certificates/Slice0/Obligations.lean ====
section
/-! DEFINITION. The statements. Where a rule describes bytes on the wire, a statement writes them out as a list pattern
(sync byte, length bytes, and so on) instead of calling the model's own field readers, so that it says what the rule says
and not what the model computes. -/

open Sys2Proof Sys2Proof.Machine

/-! ### Encoding -/

/-- Decoding a code word gives `i` exactly when `i` is well formed and encodes to that word: no bit of an encoding is
dropped, and each word has one meaning (30_encoding.md R60, R62, R74). -/
def Obligations.DecodeAndEncodeAgree : Prop :=
  ∀ (c : CodeWord) (i : Instr), decode c = .ok i ↔ WellFormed i ∧ encode i = c

/-- 30_encoding.md R66: exactly the words with an unassigned `OP`, and those with a non-zero `IMM8` where zero is required,
have no meaning; such a word sets the refusal mark and changes no other state of the block, and nothing is answered. -/
def Obligations.ReservedWordsAreRefused : Prop :=
  (∀ w : CmdWord,
    (∀ i, decode (.cmd16 w) ≠ .ok i) ↔
      let op := (w >>> 8).toNat
      let imm := w.toNat % 256
      (op = 0x00 ∨ (0x04 ≤ op ∧ op ≤ 0x0F) ∨ (0x14 ≤ op ∧ op ≤ 0x1F) ∨ (0x22 ≤ op ∧ op ≤ 0xFE))
        ∨ ((op = 0x01 ∨ op = 0x03 ∨ op = 0x11 ∨ op = 0x12 ∨ op = 0x13 ∨ op = 0x20 ∨ op = 0x21 ∨ op = 0xFF) ∧ imm ≠ 0))
    ∧ ∀ (s : State) (w : CmdWord) (ports : Ports) (rest : List Input),
      s.inbox = .command w ports :: rest → (∀ i, decode (.cmd16 w) ≠ .ok i) →
      step s = .next { s with inbox := rest, ports := ports, refused := true, out := .refusal .reservedCommand }

/-- 30_encoding.md R62: a command word decodes to a command of the row whose match it shows under the row's mask, and to
nothing else; the byte operand is `CMD[7:0]` unchanged (R63). -/
def Obligations.CommandRowsMatchUnderMask : Prop :=
  ∀ w : CmdWord,
    ((w &&& 0xFF00 = 0x0200) ↔ decode (.cmd16 w) = .ok (.crcUpd (BitVec.ofNat 8 (w.toNat % 256))))
    ∧ ((w &&& 0xFF00 = 0x1000) ↔ decode (.cmd16 w) = .ok (.frmPush (BitVec.ofNat 8 (w.toNat % 256))))
    ∧ ((w &&& 0xFFFF = 0x0100) ↔ decode (.cmd16 w) = .ok .crcInit)
    ∧ ((w &&& 0xFFFF = 0x0300) ↔ decode (.cmd16 w) = .ok .crcRd)
    ∧ ((w &&& 0xFFFF = 0x1100) ↔ decode (.cmd16 w) = .ok .frmPop)
    ∧ ((w &&& 0xFFFF = 0x1200) ↔ decode (.cmd16 w) = .ok .frmStat)
    ∧ ((w &&& 0xFFFF = 0x1300) ↔ decode (.cmd16 w) = .ok .frmDec)
    ∧ ((w &&& 0xFFFF = 0x2000) ↔ decode (.cmd16 w) = .ok .erp1Ext)
    ∧ ((w &&& 0xFFFF = 0x2100) ↔ decode (.cmd16 w) = .ok .fldExt)
    ∧ ((w &&& 0xFFFF = 0xFF00) ↔ decode (.cmd16 w) = .ok .reset)

/-- Words written out from the tables of 30_encoding.md R62 and R74 decode to the instructions they stand for. -/
def Obligations.SampleWordsDecodeAsListed : Prop :=
  decode (.cmd16 0x0100) = .ok .crcInit ∧ decode (.cmd16 0x027A) = .ok (.crcUpd 0x7A)
    ∧ decode (.cmd16 0x10FF) = .ok (.frmPush 0xFF) ∧ decode (.cmd16 0x1300) = .ok .frmDec
    ∧ decode (.cmd16 0x2000) = .ok .erp1Ext ∧ decode (.cmd16 0x2100) = .ok .fldExt
    ∧ decode (.cmd16 0xFF00) = .ok .reset ∧ decode (.ptype8 0x01) = .ok .ptypeRadioErp1
    ∧ decode (.ptype8 0x0A) = .ok (.ptypeUnsupported 0x0A) ∧ decode (.cmd16 0x0101) = .error (.nonZeroImm 0x01 0x01)
    ∧ decode (.cmd16 0x2200) = .error (.unassignedOp 0x22)

/-! ### The step -/

/-- A step whose next input is a code word with a meaning is `exec` of that instruction, with the input taken from the
inbox and, for a command, its port values driven. The placement of inputs in an inbox is the model's own (log entries 1
and 11). -/
def Obligations.StepRunsTheDecodedInstruction : Prop :=
  (∀ (s : State) (w : CmdWord) (ports : Ports) (rest : List Input) (i : Instr),
      s.inbox = .command w ports :: rest → decode (.cmd16 w) = .ok i →
      step s = exec i { s with inbox := rest, ports := ports })
    ∧ (∀ (s : State) (b : Byte) (rest : List Input) (i : Instr),
      s.inbox = .ptype b :: rest → decode (.ptype8 b) = .ok i → step s = exec i { s with inbox := rest })
    ∧ (∀ (s : State) (nbits w : Nat) (i : Instr),
      decodeTableWord nbits w = some i → step (s.withFetchWord nbits w) = exec i s)

/-- 60_exceptions.md R200, R210: the block has no trap, so a step always goes on to a next state, and it takes exactly one
input, in the order issued (20_memory.md R50). -/
def Obligations.EveryStepGoesOnAndTakesOneInput : Prop :=
  ∀ s : State, ∃ t, step s = .next t ∧ t.inbox = s.inbox.tail ∧ t.rqDepth = s.rqDepth

/-- Who writes each element of the state (10_state.md R21, 20_memory.md R40, 10_state.md R24, R28): a step that changes an
element is one of its listed writers. -/
def Obligations.StateElementsHaveOnlyTheirWriters : Prop :=
  ∀ s t : State, step s = .next t →
    (t.crc ≠ s.crc → nextInstr s = some .crcInit ∨ (∃ b, nextInstr s = some (.crcUpd b)) ∨ nextInstr s = some .reset
      ∨ powerOnNext s = true)
    ∧ (t.fbuf ≠ s.fbuf → (∃ b, nextInstr s = some (.frmPush b)) ∨ engineNext s = true ∨ nextInstr s = some .reset
      ∨ powerOnNext s = true)
    ∧ (t.rq ≠ s.rq → nextInstr s = some .frmPop ∨ engineNext s = true ∨ nextInstr s = some .reset
      ∨ powerOnNext s = true)
    ∧ (t.refused ≠ s.refused → ∃ reason, t.out = .refusal reason)

/-- 10_state.md R28 and 60_exceptions.md R207: the mark is never cleared, and it is set exactly by a refused command, which
returns no response. -/
def Obligations.RefusalMarkIsSticky : Prop :=
  ∀ s t : State, step s = .next t →
    (t.refused = true ↔ s.refused = true ∨ ∃ reason, t.out = .refusal reason)
    ∧ ((∃ reason, t.out = .refusal reason) →
        t.crc = s.crc ∧ t.fbuf = s.fbuf ∧ t.rq = s.rq ∧ t.rqDepth = s.rqDepth)

/-- 10_state.md R28, over runs: a run ends as evidence about the hardware exactly when it began as evidence and refused
nothing on the way. -/
def Obligations.EvidenceMeansNothingWasRefused : Prop :=
  ∀ (n : Nat) (s t : State), runSteps n s = some t →
    (Evidence t ↔ Evidence s ∧ ∀ reason, Output.refusal reason ∉ transcript n s)

/-- 60_exceptions.md R207: which commands are refused, and with which reason; a refused command changes no state of the
block but the mark, and returns no response. -/
def Obligations.RefusalsAreTheListedOnes : Prop :=
  ∀ (s t : State) (w : CmdWord) (ports : Ports) (rest : List Input),
    s.inbox = .command w ports :: rest → step s = .next t →
    (t.out = .refusal .reservedCommand ↔ ∀ i, decode (.cmd16 w) ≠ .ok i)
    ∧ (t.out = .refusal .operandInvariant ↔ decode (.cmd16 w) = .ok .erp1Ext ∧
        (65535 < ports.pkt.data.length ∨ 255 < ports.pkt.opt.length
          ∨ ports.pkt.ptype = .unsupported 0x01 ∨ ports.pkt.ptype = .unsupported 0x02))
    ∧ (t.out = .refusal .fieldWidth ↔ decode (.cmd16 w) = .ok .fldExt ∧ (ports.width.toNat = 0 ∨ 32 < ports.width.toNat))
    ∧ (∀ reason, t.out = .refusal reason →
        t = { s with inbox := rest, ports := ports, refused := true, out := .refusal reason })

/-- 60_exceptions.md R201: each error code is answered only by the commands that raise it, FRM.POP delivering the two CRC
errors of the queue; `UnknownDevice` never appears. -/
def Obligations.ErrorsComeOnlyFromTheirCommands : Prop :=
  ∀ (s t : State) (e : ErrorCode), StateOk s → step s = .next t → t.out = .answered (.err e) →
    e ≠ .unknownDevice
    ∧ (e = .syncByteMismatch ∨ e = .truncatedFrame → nextInstr s = some .frmDec)
    ∧ (e = .headerCrcMismatch ∨ e = .dataCrcMismatch → nextInstr s = some .frmDec ∨ nextInstr s = some .frmPop)
    ∧ (e = .wrongPacketType ∨ e = .payloadTooShort → nextInstr s = some .erp1Ext)
    ∧ (e = .payloadBitRangeOutOfBounds → nextInstr s = some .fldExt)

/-- 60_exceptions.md R201: the codes. -/
def Obligations.ErrorCodeValues : Prop :=
  errorCodeByte .syncByteMismatch = 0x01 ∧ errorCodeByte .headerCrcMismatch = 0x02
    ∧ errorCodeByte .dataCrcMismatch = 0x03 ∧ errorCodeByte .truncatedFrame = 0x04
    ∧ errorCodeByte .wrongPacketType = 0x11 ∧ errorCodeByte .payloadTooShort = 0x12
    ∧ errorCodeByte .unknownDevice = 0x21 ∧ errorCodeByte .payloadBitRangeOutOfBounds = 0x22

/-- 20_memory.md R47: CRC.RD, FRM.STAT and FRM.DEC complete in every state and change nothing of it; so do ERP1.EXT and
FLD.EXT when their operands are legal (log entry 7: the answer itself is the model's own field). -/
def Obligations.ReadOnlyCommandsChangeNothing : Prop :=
  ∀ (s : State) (i : Instr),
    (i = .crcRd ∨ i = .frmStat ∨ i = .frmDec ∨ (i = .erp1Ext ∧ pktOk s.ports.pkt = true)
      ∨ (i = .fldExt ∧ 1 ≤ s.ports.width.toNat ∧ s.ports.width.toNat ≤ 32)) →
    ∃ r, exec i s = .next { s with out := .answered r }

/-! ### Reset and the invariant -/

/-- 10_state.md R31: the state at launch, whatever queue depth the block was built with, and the state after RESET, which
leaves the refusal mark. -/
def Obligations.ResetStateIsAsStated : Prop :=
  let isReset (s : State) : Prop :=
    s.crc = 0x00 ∧ s.fbuf = [] ∧ s.rq = [] ∧ frameMode s.fbuf = .seek ∧ frameNeed s.fbuf = 0
      ∧ (queueDepthOk s.rqDepth = true → statusWord s = 0)
  (∀ depth : QueueDepth, isReset (State.launch depth) ∧ (State.launch depth).refused = false)
    ∧ ∀ s t : State, exec .reset s = .next t → isReset t ∧ t.refused = s.refused

/-- 70_reset_and_hazards.md R230: RESET's word; RESET completes in every state, writes `crc`, `fbuf` and `rq`, keeps the
refusal mark, and is idempotent; launch is the same assignment with the mark false. -/
def Obligations.ResetClearsTheBlock : Prop :=
  decode (.cmd16 0xFF00) = .ok .reset
    ∧ (∀ s : State, exec .reset s = .next { s with crc := 0x00, fbuf := [], rq := [], out := .answered .done })
    ∧ (∀ s t : State, exec .reset s = .next t → exec .reset t = .next t)
    ∧ ∀ depth : QueueDepth, (State.launch depth).crc = 0x00 ∧ (State.launch depth).fbuf = []
      ∧ (State.launch depth).rq = [] ∧ (State.launch depth).refused = false

/-- A power-on reset of a block that has run makes RESET's assignment without a response (70_reset_and_hazards.md R230,
60_exceptions.md R217); that it can be an input of a run is the model's own (log entry 10). -/
def Obligations.PowerOnMakesResetsAssignment : Prop :=
  ∀ (s : State) (rest : List Input), s.inbox = .powerOn :: rest →
    step s = .next { s with inbox := rest, crc := 0x00, fbuf := [], rq := [], out := .silent }

/-- From every state that meets the invariant, a step gives a state that meets it: the buffer never exceeds BUF_CAP
(70_reset_and_hazards.md R241), the queue never exceeds RQ_DEPTH and holds only packets within the header's lengths and
the two CRC errors (10_state.md R24). -/
def Obligations.InvariantKeptByEveryStep : Prop :=
  ∀ s t : State, StateOk s → step s = .next t → StateOk t

/-- The invariant holds at launch with every legal queue depth. -/
def Obligations.InvariantHoldsAtLaunch : Prop :=
  ∀ depth : QueueDepth, queueDepthOk depth = true → StateOk (State.launch depth)

/-! ### Packet types -/

/-- 41_framer.md R120: the classes, and that classification loses no information. -/
def Obligations.ClassifyKeepsTheCode : Prop :=
  classify 0x01 = .radioErp1 ∧ classify 0x02 = .response
    ∧ (∀ c : Byte, c ≠ 0x01 → c ≠ 0x02 → classify c = .unsupported c) ∧ (∀ c : Byte, ptypeCode (classify c) = c)

/-- The packet-type rows complete in every state and show their class, changing nothing else; presenting a byte to the
classifier is the model's own (log entry 6), the class is 41_framer.md R120's. -/
def Obligations.PacketTypeRowsShowTheClass : Prop :=
  ∀ s : State,
    exec .ptypeRadioErp1 s = .next { s with out := .classified .radioErp1 }
    ∧ exec .ptypeResponse s = .next { s with out := .classified .response }
    ∧ ∀ c : Byte, c ≠ 0x01 → c ≠ 0x02 → exec (.ptypeUnsupported c) s = .next { s with out := .classified (.unsupported c) }

/-! ### The CRC-8 generator -/

/-- 40_crc8.md R104: CRC.INIT's word; it completes in every state and writes `crc` alone. -/
def Obligations.CrcInitSetsZero : Prop :=
  decode (.cmd16 0x0100) = .ok .crcInit
    ∧ ∀ s : State, exec .crcInit s = .next { s with crc := 0x00, out := .answered .done }

/-- 40_crc8.md R105: CRC.UPD's words; it completes in every state for every byte and writes `crc` alone, with the table's
entry for `crc XOR b`. -/
def Obligations.CrcUpdLooksUpTheTable : Prop :=
  ∀ b : Byte, decode (.cmd16 (cmdWord 0x02 b)) = .ok (.crcUpd b)
    ∧ ∀ s : State, ∃ v, crcTable[(s.crc ^^^ b).toNat]? = some v
      ∧ exec (.crcUpd b) s = .next { s with crc := v, out := .answered .done }

/-- 40_crc8.md R106: CRC.RD's word; it completes in every state, answers `crc` and does not clear it. -/
def Obligations.CrcRdAnswersTheAccumulator : Prop :=
  decode (.cmd16 0x0300) = .ok .crcRd ∧ ∀ s : State, exec .crcRd s = .next { s with out := .answered (.crc s.crc) }

/-- 40_crc8.md R101: the table form and the bit-serial form agree on every sequence, and the table's entry at a byte is the
loop's result for it. -/
def Obligations.TableFormIsBitSerialForm : Prop :=
  (∀ s : List Byte, crc8 s = crc8Serial s) ∧ ∀ i : Byte, crcTable[i.toNat]? = some (crcSerialByte 0x00 i)

/-- 40_crc8.md R103: composition, zero residue, leading zeros. -/
def Obligations.CrcLaws : Prop :=
  (∀ s t : List Byte, crc8 (s ++ t) = crc8From (crc8 s) t)
    ∧ (∀ s : List Byte, crc8 (s ++ [crc8 s]) = 0x00)
    ∧ (∀ s : List Byte, crc8 (0x00 :: s) = crc8 s)

/-- A CRC-8 sees every single changed byte of a message of fixed length: the reason the corrupted frames of
41_framer.md R157 fail their data CRC (from 40_crc8.md R100 and the table R102). -/
def Obligations.CrcSeesEveryChangedByte : Prop :=
  ∀ (s t : List Byte) (x y : Byte), x ≠ y → crc8 (s ++ x :: t) ≠ crc8 (s ++ y :: t)

/-- 40_crc8.md R108: the check values, which the spec marks as general knowledge. -/
def Obligations.CrcCheckValues : Prop :=
  crc8 [0x31, 0x32, 0x33, 0x34, 0x35, 0x36, 0x37, 0x38, 0x39] = 0xF4
    ∧ crc8 [0x00, 0x07, 0x07, 0x01] = 0x7A ∧ crc8 [0x00, 0x01, 0x00, 0x05] = 0x70 ∧ crc8 [0x08] = 0x38

/-- 40_crc8.md R107: from any state, after CRC.INIT and any interleaving of CRC.UPD with inputs that are not CRC.INIT,
CRC.UPD, RESET or power-on (reserved words, engine turns and pushes among them), CRC.RD answers CRC8 of the bytes. So
CRC.CALC (30_encoding.md R68) answers CRC8 of its list, and leaves the framer alone. -/
def Obligations.AccumulatorAnswersCrcOfItsBytes : Prop :=
  (∀ (s : State) (xs : List Input) (p q : Ports) (rest : List Input),
    (∀ x ∈ xs, restartsCrc x = false) →
    s.inbox = .command 0x0100 p :: xs ++ .command 0x0300 q :: rest →
    ∃ t, runSteps (xs.length + 2) s = some t ∧ t.out = .answered (.crc (crc8 (xs.flatMap absorbedByte))))
  ∧ ∀ (s : State) (ports : Ports) (bs : List Byte), ∃ t,
    feedInputs (assemble ports (.crcCalc bs)) s = some t ∧ t.out = .answered (.crc (crc8 bs)) ∧ t.crc = crc8 bs
      ∧ t.fbuf = s.fbuf ∧ t.rq = s.rq ∧ t.refused = s.refused ∧ t.inbox = s.inbox

/-! ### One-shot decode -/

/-- 41_framer.md R130, 60_exceptions.md R204: FRM.DEC's word; it completes in every state, changes nothing of it, and
answers the first error that applies, in the rule's order, or the packet; bytes after the frame are ignored. -/
def Obligations.FrmDecAnswersInOrder : Prop :=
  decode (.cmd16 0x1300) = .ok .frmDec ∧ ∀ s : State, ∃ r, exec .frmDec s = .next { s with out := .answered r } ∧
    (s.ports.frame = [] → r = .err .truncatedFrame)
    ∧ (∀ x tl, s.ports.frame = x :: tl → x ≠ 0x55 → r = .err .syncByteMismatch)
    ∧ (∀ tl, s.ports.frame = 0x55 :: tl → tl.length < 5 → r = .err .truncatedFrame)
    ∧ (∀ d1 d0 ol pt hc tl, s.ports.frame = 0x55 :: d1 :: d0 :: ol :: pt :: hc :: tl →
        (crc8 [d1, d0, ol, pt] ≠ hc → r = .err .headerCrcMismatch)
        ∧ (crc8 [d1, d0, ol, pt] = hc →
            (tl.length < d1.toNat * 256 + d0.toNat + ol.toNat + 1 → r = .err .truncatedFrame)
            ∧ ∀ data opt dc post, tl = data ++ opt ++ dc :: post → data.length = d1.toNat * 256 + d0.toNat →
                opt.length = ol.toNat →
                (crc8 (data ++ opt) ≠ dc → r = .err .dataCrcMismatch)
                ∧ (crc8 (data ++ opt) = dc → r = .packet { ptype := classify pt, data := data, opt := opt })))

/-! ### The drain engine -/

/-- 41_framer.md R142, R143, R145, R146: what a turn of the engine does on every buffer: the four cases, holding on a full
queue, and nothing when the buffer needs no work. That a turn is an input of the run or, with an empty inbox, the default,
and that a turn with no enabled step changes nothing, is the model's choice (log entries 1 and 2). -/
def Obligations.EngineTurnTakesTheRulesCase : Prop :=
  ∀ s : State, engineNext s = true →
    ∃ t, step s = .next t ∧ t.crc = s.crc ∧ t.refused = s.refused ∧ t.ports = s.ports ∧ t.out = .silent ∧
    (s.fbuf = [] → t.fbuf = [] ∧ t.rq = s.rq)
    ∧ (∀ x tl, s.fbuf = x :: tl → x ≠ 0x55 → t.fbuf = tl ∧ t.rq = s.rq)
    ∧ (∀ tl, s.fbuf = 0x55 :: tl → tl.length < 5 → t.fbuf = s.fbuf ∧ t.rq = s.rq)
    ∧ (∀ d1 d0 ol pt hc tl, s.fbuf = 0x55 :: d1 :: d0 :: ol :: pt :: hc :: tl →
        let emits (r : FrameResult) (rest : List Byte) : Prop :=
          (hasRoom s.rqDepth s.rq = true → t.fbuf = rest ∧ t.rq = s.rq ++ [r])
          ∧ (hasRoom s.rqDepth s.rq = false → t.fbuf = s.fbuf ∧ t.rq = s.rq)
        (crc8 [d1, d0, ol, pt] ≠ hc → emits (.err .headerCrcMismatch) (d1 :: d0 :: ol :: pt :: hc :: tl))
        ∧ (crc8 [d1, d0, ol, pt] = hc →
            (tl.length < d1.toNat * 256 + d0.toNat + ol.toNat + 1 → t.fbuf = s.fbuf ∧ t.rq = s.rq)
            ∧ ∀ data opt dc post, tl = data ++ opt ++ dc :: post → data.length = d1.toNat * 256 + d0.toNat →
                opt.length = ol.toNat →
                (crc8 (data ++ opt) ≠ dc → emits (.err .dataCrcMismatch) (d1 :: d0 :: ol :: pt :: hc :: tl))
                ∧ (crc8 (data ++ opt) = dc →
                    emits (.ok { ptype := classify pt, data := data, opt := opt }) post)))

/-- 41_framer.md R142, 10_state.md R24: a queue has room while it is shorter than RQ_DEPTH, and always when unbounded; full
is being exactly as long (10_state.md R29). -/
def Obligations.QueueRoomIsBelowDepth : Prop :=
  ∀ (n : Nat) (q : List FrameResult),
    hasRoom .unbounded q = true ∧ rqFull .unbounded q = false
      ∧ (hasRoom (.bounded n) q = true ↔ q.length < n) ∧ (rqFull (.bounded n) q = true ↔ q.length = n)

/-- 41_framer.md R141: `NeedsWork` is true exactly when R142 has a case for the buffer, so with an unbounded queue exactly
when a step is enabled. -/
def Obligations.NeedsWorkIsHavingACase : Prop :=
  ∀ (b : List Byte) (q : List FrameResult),
    (needsWork b = true ↔ ∃ c, drainCase b = some c) ∧ (needsWork b = true ↔ ∃ x, drainStep .unbounded b q = some x)

/-- 10_state.md R23, as an equivalence: the idle buffers are the empty one, a sync byte with an incomplete header, and a
valid header with an incomplete frame. -/
def Obligations.IdleBuffersAreTheThreeKinds : Prop :=
  ∀ b : List Byte, Idle b ↔
    b = []
    ∨ (∃ tl, b = 0x55 :: tl ∧ b.length < 6)
    ∨ (∃ d1 d0 ol pt hc tl, b = 0x55 :: d1 :: d0 :: ol :: pt :: hc :: tl ∧ crc8 [d1, d0, ol, pt] = hc
        ∧ b.length < 7 + (d1.toNat * 256 + d0.toNat) + ol.toNat)

/-- 41_framer.md R148: every enabled step removes at least one byte, so from any state with an empty inbox at most `|fbuf|`
turns run before the engine is idle, given room in the queue for as many results. That each step on an empty inbox is a turn
of the engine, which the second part counts, is the model's choice (log entry 2). -/
def Obligations.DrainingEndsWithinBufferLength : Prop :=
  (∀ (depth : QueueDepth) (b b' : List Byte) (q q' : List FrameResult),
      drainStep depth b q = some (b', q') → b'.length < b.length)
    ∧ ∀ s : State, s.inbox = [] → (∀ n, s.rqDepth = .bounded n → s.rq.length + s.fbuf.length ≤ n) →
      ∃ k t, k ≤ s.fbuf.length ∧ runSteps k s = some t ∧ Idle t.fbuf

/-- 41_framer.md R140 (weak fairness, in the model's form, log entry 2): whatever the host has scheduled, with an unbounded
queue the run reaches a state with nothing left to do, within a bound linear in the inputs and the buffer. -/
def Obligations.EveryScheduleEndsIdle : Prop :=
  ∀ s : State, s.rqDepth = .unbounded →
    ∃ n t, n ≤ 2 * s.inbox.length + s.fbuf.length ∧ runSteps n s = some t ∧ t.inbox = [] ∧ Idle t.fbuf

/-- 70_reset_and_hazards.md R251: with any legal queue depth, a host that stops pushing and pops before each turn of the
engine sees it idle after `|fbuf|` rounds. -/
def Obligations.PoppingHostReachesIdle : Prop :=
  ∀ (s : State) (p : Ports), StateOk s →
    s.inbox = (List.replicate s.fbuf.length [Input.command 0x1100 p, Input.engine]).flatten →
    ∃ t, runSteps (2 * s.fbuf.length) s = some t ∧ Idle t.fbuf

/-- 41_framer.md R156: on a buffer whose head is a complete frame, the emitted result is what FRM.DEC answers for it. -/
def Obligations.EngineAgreesWithOneShotDecode : Prop :=
  ∀ (f post : List Byte) (q : List FrameResult), byteAt f 0 = 0x55 → f ≠ [] → decodeFrame f ≠ .err .truncatedFrame →
    ∃ rest, drainStep .unbounded (f ++ post) q = some (rest, q ++ [decodeFrame f])

/-- 41_framer.md R158 (and R151, R52): take a framer with nothing in it and any schedule of commands and engine turns
without RESET, whatever the queue depth. Whenever the engine is idle, the results popped so far followed by those queued,
and the buffer, are what `Drain` gives on the bytes accepted so far: they depend on nothing else. -/
def Obligations.ResultsDependOnlyOnTheAcceptedBytes : Prop :=
  ∀ (s : State) (n : Nat), StreamStart s →
    let tr := traceRun n s
    Idle tr.now.fbuf → (tr.now.fbuf, tr.popped ++ tr.now.rq) = drain tr.pushed []

/-- 41_framer.md R158, R51 before the idle point: at every moment the results emitted are a prefix of what the accepted
bytes determine. -/
def Obligations.ResultsAppearInStreamOrder : Prop :=
  ∀ (s : State) (n : Nat), StreamStart s →
    let tr := traceRun n s
    (tr.popped ++ tr.now.rq) <+: (drain tr.pushed []).2

/-- 41_framer.md R151: an accepted push followed by engine turns with nothing else scheduled reaches `PushAtomic`, with an
unbounded queue. That the steps after the push, on an empty inbox, are turns of the engine is the model's choice (log entry
2). -/
def Obligations.PushThenDrainIsPushAtomic : Prop :=
  ∀ (s : State) (b : Byte) (p : Ports), Idle s.fbuf → s.fbuf.length < 65797 → s.rqDepth = .unbounded →
    s.inbox = [.command (cmdWord 0x10 b) p] →
    ∃ k t, runSteps (k + 1) s = some t ∧ Idle t.fbuf ∧ (t.fbuf, t.rq) = pushAtomic s.fbuf s.rq b ∧ t.crc = s.crc

/-- 41_framer.md R159: FRM.DEC of a serialized packet, with any bytes after it, answers that packet; pushing it into an
empty framer, under any schedule without RESET, emits exactly that packet and leaves the buffer empty. -/
def Obligations.SerializedPacketComesBack : Prop :=
  ∀ p : Esp3Packet, pktOk p = true →
    (∀ (s : State) (post : List Byte), s.ports.frame = ser p ++ post →
      exec .frmDec s = .next { s with out := .answered (.packet p) })
    ∧ ∀ (s : State) (n : Nat), StreamStart s →
      let tr := traceRun n s
      tr.pushed = ser p → Idle tr.now.fbuf → tr.popped ++ tr.now.rq = [.ok p] ∧ tr.now.fbuf = []

/-- 41_framer.md R157: a frame with one changed data byte whose data CRC fails and whose only `0x55` is its sync byte,
followed by a valid frame, gives exactly one DataCrcMismatch and then the second packet, under any schedule without
RESET. -/
def Obligations.ResynchronisesAfterACorruptedFrame : Prop :=
  ∀ (s : State) (n k : Nat) (p1 p2 : Esp3Packet) (x : Byte), StreamStart s → pktOk p1 = true → pktOk p2 = true →
    k < p1.data.length →
    let f1 := (ser p1).set (6 + k) x
    crc8 (p1.data.set k x ++ p1.opt) ≠ crc8 (p1.data ++ p1.opt) →
    (∀ b ∈ f1.tail, b ≠ 0x55) →
    let tr := traceRun n s
    tr.pushed = f1 ++ ser p2 → Idle tr.now.fbuf →
    tr.popped ++ tr.now.rq = [.err .dataCrcMismatch, .ok p2] ∧ tr.now.fbuf = []

/-- 41_framer.md R155: a complete valid frame anywhere in the stream is emitted, unless an earlier candidate's header passes
its CRC and declares a frame that spans the start of it, and that frame is accepted or still incomplete. The condition is
asked of every earlier `0x55`, also of one inside a frame accepted before. -/
def Obligations.NoValidPacketIsLost : Prop :=
  ∀ (pre post : List Byte) (p : Esp3Packet), pktOk p = true →
    (∀ k, k < pre.length →
      let b := pre.drop k ++ ser p ++ post
      byteAt b 0 = 0x55 → hdrOK b = true → pre.length - k < frameLen b →
      frameLen b ≤ b.length ∧ bodyCrcOK b = false) →
    .ok p ∈ (drain (pre ++ ser p ++ post) []).2

/-- 60_exceptions.md R202, R203: a turn that changes the buffer either removes the one byte at its head, which is emitted as
an error if it is a sync byte and vanishes silently only if it is not, or emits a packet and removes its whole frame; the
queue's earlier entries stay. The turn is an input of the run or, with an empty inbox, the model's default (log entries 1
and 2). -/
def Obligations.NothingIsDroppedSilently : Prop :=
  ∀ s t : State, engineNext s = true → step s = .next t → t.fbuf ≠ s.fbuf →
    (∃ x, x ≠ 0x55 ∧ s.fbuf = x :: t.fbuf ∧ t.rq = s.rq)
    ∨ (∃ e, (e = .headerCrcMismatch ∨ e = .dataCrcMismatch) ∧ s.fbuf = 0x55 :: t.fbuf ∧ t.rq = s.rq ++ [.err e])
    ∨ (∃ p, pktOk p = true ∧ s.fbuf = ser p ++ t.fbuf ∧ t.rq = s.rq ++ [.ok p])

/-! ### The framer commands -/

/-- 41_framer.md R150: FRM.PUSH's words; it completes in every state; it answers `Busy` and changes nothing while the engine
has work or the buffer is at capacity, else it appends the byte. -/
def Obligations.FrmPushAppendsOrIsBusy : Prop :=
  ∀ b : Byte, decode (.cmd16 (cmdWord 0x10 b)) = .ok (.frmPush b)
    ∧ ∀ s : State,
      (needsWork s.fbuf = true ∨ 65797 ≤ s.fbuf.length → exec (.frmPush b) s = .next { s with out := .answered .busy })
      ∧ (needsWork s.fbuf = false → s.fbuf.length < 65797 →
          exec (.frmPush b) s = .next { s with fbuf := s.fbuf ++ [b], out := .answered .done })

/-- 70_reset_and_hazards.md R241: an idle buffer is below capacity, so an idle framer always accepts a byte. -/
def Obligations.IdleFramerAcceptsAByte : Prop :=
  ∀ (s : State) (b : Byte), Idle s.fbuf →
    exec (.frmPush b) s = .next { s with fbuf := s.fbuf ++ [b], out := .answered .done }

/-- 41_framer.md R152: FRM.POP's word; it completes in every state; it answers `Empty` and changes nothing on an empty
queue, else it delivers the head and removes it. -/
def Obligations.FrmPopDeliversTheHead : Prop :=
  decode (.cmd16 0x1100) = .ok .frmPop ∧ ∀ s : State,
    (s.rq = [] → exec .frmPop s = .next { s with out := .answered .empty })
    ∧ (∀ p q, s.rq = .ok p :: q → exec .frmPop s = .next { s with rq := q, out := .answered (.packet p) })
    ∧ (∀ e q, s.rq = .err e :: q → exec .frmPop s = .next { s with rq := q, out := .answered (.err e) })

/-- 41_framer.md R153, 10_state.md R29, R25: FRM.STAT's word; in every state within the buffer bound it completes, changes
nothing, and answers a word with these fields. -/
def Obligations.FrmStatShowsTheFields : Prop :=
  decode (.cmd16 0x1200) = .ok .frmStat ∧ ∀ s : State, s.fbuf.length ≤ 65797 → ∃ w : U64,
    exec .frmStat s = .next { s with out := .answered (.status w) }
    ∧ (needsWork s.fbuf = true → (w.extractLsb' 0 2).toNat = 3 ∧ (w.extractLsb' 32 17).toNat = 0)
    ∧ (s.fbuf = [] → (w.extractLsb' 0 2).toNat = 0 ∧ (w.extractLsb' 32 17).toNat = 0)
    ∧ (Idle s.fbuf → s.fbuf ≠ [] → s.fbuf.length < 6 →
        (w.extractLsb' 0 2).toNat = 1 ∧ (w.extractLsb' 32 17).toNat = 6 - s.fbuf.length)
    ∧ (∀ x d1 d0 ol tl, Idle s.fbuf → 6 ≤ s.fbuf.length → s.fbuf = x :: d1 :: d0 :: ol :: tl →
        (w.extractLsb' 0 2).toNat = 2
          ∧ (w.extractLsb' 32 17).toNat = 7 + (d1.toNat * 256 + d0.toNat) + ol.toNat - s.fbuf.length)
    ∧ (w.getLsbD 2 = true ↔ s.rq ≠ []) ∧ (w.getLsbD 3 = true ↔ s.rqDepth = .bounded s.rq.length)
    ∧ w.extractLsb' 4 4 = 0 ∧ (w.extractLsb' 8 17).toNat = s.fbuf.length ∧ w.extractLsb' 25 7 = 0
    ∧ w.extractLsb' 49 15 = 0

/-- 70_reset_and_hazards.md R240: a host that pops straight after the push that completes a frame may see `Empty`; after the
engine's turn the packet is there. -/
def Obligations.EarlyPopMissesAPendingResult : Prop :=
  ∀ (s : State) (p : Esp3Packet) (b : Byte) (ports : Ports), pktOk p = true → s.fbuf ++ [b] = ser p → s.rq = [] →
    queueDepthOk s.rqDepth = true →
    s.inbox = [.command (cmdWord 0x10 b) ports, .command 0x1100 ports, .engine, .command 0x1100 ports] →
    transcript 4 s = [.answered .done, .answered .empty, .silent, .answered (.packet p)]

/-- 30_encoding.md R68, 20_memory.md R53: FRM.FEED of any bytes into an idle framer with an unbounded queue, then FRM.WAIT,
as the host's loops, end; the engine is then idle and every result the bytes determine has been emitted. One turn of the
engine between attempts is the model's own (log entry 12). -/
def Obligations.FeedThenWaitEmitsEverything : Prop :=
  ∀ (s : State) (bs : List Byte), Idle s.fbuf → s.rqDepth = .unbounded → ∃ n t u,
    frmFeed n bs s = some t ∧ frmWait n t = some u ∧ Idle u.fbuf ∧ (u.fbuf, u.rq) = drain (s.fbuf ++ bs) s.rq
      ∧ u.crc = s.crc

/-! ### The ERP1 extractor -/

/-- 42_erp1.md R170, R171, R172, 60_exceptions.md R205, 30_encoding.md R82: ERP1.EXT's word. Of a RADIO_ERP1 packet within
the header's lengths it answers the fields at their positions: an optional field is present exactly when its bytes are, the
identifiers are big-endian, and the dBm value is the OPEN reading of the raw byte. Of a legal packet of another type it
answers WrongPacketType even when the data is short, of a short RADIO_ERP1 packet PayloadTooShort; an illegal packet is
refused. Nothing else changes. -/
def Obligations.Erp1ExtAnswersAsStated : Prop :=
  decode (.cmd16 0x2000) = .ok .erp1Ext
  ∧ (∀ (s : State) (rorg : Byte) (payload : List Byte) (a b c d st : Byte) (opt : List Byte),
    payload.length ≤ 65529 → opt.length ≤ 255 →
    s.ports.pkt = { ptype := .radioErp1, data := rorg :: payload ++ [a, b, c, d, st], opt := opt } →
    ∃ t : Erp1Telegram, exec .erp1Ext s = .next { s with out := .answered (.telegram t) }
      ∧ t.rorg = rorg ∧ t.payload = payload ∧ t.status = st
      ∧ t.senderId.toNat = a.toNat * 2 ^ 24 + b.toNat * 2 ^ 16 + c.toNat * 2 ^ 8 + d.toNat
      ∧ t.subTelegramCount = opt[0]? ∧ t.rssiRaw = opt[5]? ∧ t.securityLevel = opt[6]?
      ∧ t.rssiDbm = (opt[5]?).map Config.rssiInterp
      ∧ (opt.length < 5 → t.destinationId = none)
      ∧ (∀ x e f g h tl, opt = x :: e :: f :: g :: h :: tl →
          ∃ v, t.destinationId = some v
            ∧ v.toNat = e.toNat * 2 ^ 24 + f.toNat * 2 ^ 16 + g.toNat * 2 ^ 8 + h.toNat))
  ∧ ∀ s : State,
    (pktOk s.ports.pkt = true → s.ports.pkt.ptype ≠ .radioErp1 →
        exec .erp1Ext s = .next { s with out := .answered (.err .wrongPacketType) })
    ∧ (pktOk s.ports.pkt = true → s.ports.pkt.ptype = .radioErp1 → s.ports.pkt.data.length < 6 →
        exec .erp1Ext s = .next { s with out := .answered (.err .payloadTooShort) })
    ∧ (65535 < s.ports.pkt.data.length ∨ 255 < s.ports.pkt.opt.length ∨ s.ports.pkt.ptype = .unsupported 0x01
          ∨ s.ports.pkt.ptype = .unsupported 0x02 →
        exec .erp1Ext s = .next { s with refused := true, out := .refusal .operandInvariant })

/-- 42_erp1.md R180, R181, 20_memory.md R43: FLD.EXT's word. Of a legal width inside the payload it answers the value whose
bits, most significant first, are the payload's bits from the offset on, with zeros above the width; past the payload's end
it answers PayloadBitRangeOutOfBounds, the sum never wrapping; an illegal width is refused. Nothing else changes. -/
def Obligations.FldExtAnswersAsStated : Prop :=
  decode (.cmd16 0x2100) = .ok .fldExt ∧ ∀ s : State,
    let p := s.ports.payload
    let off := s.ports.offset.toNat
    let w := s.ports.width.toNat
    (1 ≤ w → w ≤ 32 → off + w ≤ 8 * p.length →
      ∃ v : U32, exec .fldExt s = .next { s with out := .answered (.field v) }
        ∧ (∀ k, k < w → v.getLsbD (w - 1 - k) = (p.getD ((off + k) / 8) 0).getLsbD (7 - (off + k) % 8))
        ∧ (∀ j, w ≤ j → v.getLsbD j = false))
    ∧ (1 ≤ w → w ≤ 32 → 8 * p.length < off + w →
        exec .fldExt s = .next { s with out := .answered (.err .payloadBitRangeOutOfBounds) })
    ∧ (w = 0 ∨ 32 < w → exec .fldExt s = .next { s with refused := true, out := .refusal .fieldWidth })

/-- A field that is split in two at any point is its two parts side by side (from 42_erp1.md R180, 20_memory.md R43). -/
def Obligations.FieldsConcatenate : Prop :=
  ∀ (p : List Byte) (off m n : Nat),
    fieldValue p off (m + n) = fieldValue p off m * 2 ^ n + fieldValue p (off + m) n
      ∧ fieldValue p off n < 2 ^ n
end

