-- ==== Sys2Proof/Laws/Sequences.lean ====
section
/-! SUPPORT. Byte sequences: what `byteAt` and `slice` read, in range (00_scope.md R9, 20_memory.md R41). -/

namespace Sys2Proof.Machine

@[simp] theorem byteAt_cons_zero (x : Byte) (s : List Byte) : byteAt (x :: s) 0 = x := rfl

@[simp] theorem byteAt_cons_succ (x : Byte) (s : List Byte) (i : Nat) : byteAt (x :: s) (i + 1) = byteAt s i := by
  simp [byteAt]

/-- In range, `byteAt` is the list's element: the free value behind it is not met. -/
theorem byteAt_eq_getElem {s : List Byte} {i : Nat} (h : i < s.length) : byteAt s i = s[i] := by
  simp [byteAt, h]

theorem byteAt_append_left {s t : List Byte} {i : Nat} (h : i < s.length) : byteAt (s ++ t) i = byteAt s i := by
  simp [byteAt, List.getElem?_append_left h]

theorem byteAt_append_right {s t : List Byte} {i : Nat} (h : s.length ≤ i) :
    byteAt (s ++ t) i = byteAt t (i - s.length) := by
  simp [byteAt, List.getElem?_append_right h]

theorem byteAt_append_length (s : List Byte) (x : Byte) (t : List Byte) : byteAt (s ++ x :: t) s.length = x := by
  simp [byteAt]

/-- `MemRead` in range reads exactly `n` bytes. -/
theorem slice_length {s : List Byte} {a n : Nat} (h : a + n ≤ s.length) : (slice s a n).length = n := by
  simp [slice]; omega

/-- Byte `j` of a read is byte `a + j` of the space. -/
theorem byteAt_slice {s : List Byte} {a n j : Nat} (h : j < n) : byteAt (slice s a n) j = byteAt s (a + j) := by
  simp [slice, byteAt, h]

@[simp] theorem slice_cons_succ (x : Byte) (s : List Byte) (a n : Nat) : slice (x :: s) (a + 1) n = slice s a n := rfl

theorem slice_append_left {s t : List Byte} {a n : Nat} (h : a + n ≤ s.length) : slice (s ++ t) a n = slice s a n := by
  rw [slice, slice, List.drop_append_of_le_length (by omega), List.take_append_of_le_length (by simp; omega)]

/-- The first field after a prefix. -/
theorem slice_append_exact (s t u : List Byte) : slice (s ++ t ++ u) s.length t.length = t := by
  simp [slice]

theorem slice_zero_append (s t : List Byte) : slice (s ++ t) 0 s.length = s := by
  simp [slice]

end Sys2Proof.Machine
end

