-- ==== Sys2Proof/Laws/Crc.lean ====
section
/-! SUPPORT. The CRC-8 function (40_crc8.md R100 to R103). -/

namespace Sys2Proof.Machine

@[simp] theorem crc8From_nil (c : Byte) : crc8From c [] = c := rfl

@[simp] theorem crc8From_cons (c b : Byte) (s : List Byte) : crc8From c (b :: s) = crc8From (crcAbsorb c b) s := rfl

theorem crc8From_append (c : Byte) (s t : List Byte) : crc8From c (s ++ t) = crc8From (crc8From c s) t := by
  simp [crc8From]

@[simp] theorem crc8_nil : crc8 [] = 0 := rfl

/-- The table has an entry for every byte, so a look-up never reads out of range. -/
theorem crcTable_length : crcTable.length = 256 := by decide +kernel

/-- The bit-serial loop depends on the accumulator and the byte only through their XOR. -/
theorem crcSerialByte_xor (c b : Byte) : crcSerialByte c b = crcSerialByte 0 (c ^^^ b) := by
  simp [crcSerialByte]

/-- `TABLE[i]` is the loop's result for the single byte `i` (R101), over all 256 entries. -/
theorem crcTable_is_serial : ∀ i : Fin 256, byteAt crcTable i.val = crcSerialByte 0 (BitVec.ofFin i) := by decide +kernel

theorem crcAbsorb_eq_serial (c b : Byte) : crcAbsorb c b = crcSerialByte c b := by
  rw [crcSerialByte_xor, crcAbsorb]
  exact crcTable_is_serial (c ^^^ b).toFin

/-- `TABLE[0] = 0`: absorbing the accumulator's own value clears it (R103 (c)). -/
theorem crcAbsorb_self (c : Byte) : crcAbsorb c c = 0 := by
  simp [crcAbsorb]; decide

/-- The feedback step undone: the bit shifted out is told by the polynomial's odd constant term. -/
def crcUnshift (c : Byte) : Byte := if c.getLsbD 0 then ((c ^^^ crcPoly) >>> 1) ||| 0x80 else c >>> 1

theorem crcUnshift_crcShift : ∀ c : Fin 256, crcUnshift (crcShift (BitVec.ofFin c)) = BitVec.ofFin c := by
  decide +kernel

theorem crcShift_injective {c d : Byte} (h : crcShift c = crcShift d) : c = d := by
  have hc := crcUnshift_crcShift c.toFin
  have hd := crcUnshift_crcShift d.toFin
  simp only [BitVec.ofFin_toFin] at hc hd
  rw [← hc, ← hd, h]

/-- Absorbing is injective in the XOR of accumulator and byte: no two bytes share a table entry. -/
theorem crcAbsorb_injective {c b d x : Byte} (h : crcAbsorb c b = crcAbsorb d x) : c ^^^ b = d ^^^ x := by
  rw [crcAbsorb_eq_serial, crcAbsorb_eq_serial] at h
  iterate 8 replace h := crcShift_injective h
  exact h

theorem crcAbsorb_left_injective {b c d : Byte} (h : crcAbsorb c b = crcAbsorb d b) : c = d := by
  simpa using congrArg (· ^^^ b) (crcAbsorb_injective h)

theorem crcAbsorb_right_injective {c x y : Byte} (h : crcAbsorb c x = crcAbsorb c y) : x = y := by
  simpa [← BitVec.xor_assoc] using congrArg (c ^^^ ·) (crcAbsorb_injective h)

/-- The fold over a fixed message is injective in its starting value. -/
theorem crc8From_injective {s : List Byte} : ∀ {c d : Byte}, crc8From c s = crc8From d s → c = d := by
  induction s with
  | nil => intro c d h; exact h
  | cons b s ih => intro c d h; exact crcAbsorb_left_injective (ih h)

end Sys2Proof.Machine
end

