-- ==== Sys2Proof/Laws/Frames.lean ====
section
/-! SUPPORT. Frame fields on the wire layout of 30_encoding.md R70: what the field readers give on a written-out header and
body, and that they do not look past the bytes they need. -/

namespace Sys2Proof.Machine

/-- A sequence of at least six bytes shows its header. -/
theorem exists_header {b : List Byte} (h : 6 ≤ b.length) :
    ∃ x d1 d0 ol pt hc tl, b = x :: d1 :: d0 :: ol :: pt :: hc :: tl := by
  match b, h with
  | x :: d1 :: d0 :: ol :: pt :: hc :: tl, _ => exact ⟨x, d1, d0, ol, pt, hc, tl, rfl⟩

/-- A tail long enough for the body splits into data, optional data, data CRC and the bytes after the frame. -/
theorem exists_body {tl : List Byte} {n m : Nat} (h : n + m + 1 ≤ tl.length) :
    ∃ data opt dc post, tl = data ++ opt ++ dc :: post ∧ data.length = n ∧ opt.length = m := by
  have hne : (tl.drop n).drop m ≠ [] := by
    intro h0
    have := congrArg List.length h0
    simp at this
    omega
  obtain ⟨dc, post, hdp⟩ := List.exists_cons_of_ne_nil hne
  refine ⟨tl.take n, (tl.drop n).take m, dc, post, ?_, by simp; omega, by simp; omega⟩
  rw [← hdp, List.append_assoc, List.take_append_drop, List.take_append_drop]

section
variable (x d1 d0 ol pt hc dc : Byte) (tl data opt post : List Byte)

@[simp] theorem dataLen_header : dataLen (x :: d1 :: d0 :: tl) = d1.toNat * 256 + d0.toNat := rfl

@[simp] theorem optLen_header : optLen (x :: d1 :: d0 :: ol :: tl) = ol.toNat := rfl

@[simp] theorem bodyLen_header :
    bodyLen (x :: d1 :: d0 :: ol :: tl) = d1.toNat * 256 + d0.toNat + ol.toNat := rfl

@[simp] theorem frameLen_header :
    frameLen (x :: d1 :: d0 :: ol :: tl) = 7 + (d1.toNat * 256 + d0.toNat) + ol.toNat := rfl

theorem frameLen_eq (b : List Byte) : frameLen b = 7 + bodyLen b := by
  simp [frameLen, bodyLen]; omega

@[simp] theorem hdrOK_header :
    hdrOK (x :: d1 :: d0 :: ol :: pt :: hc :: tl) = (crc8 [d1, d0, ol, pt] == hc) := by
  simp [hdrOK, slice, byteAt]

theorem bodyCrcOK_frame (hd : data.length = d1.toNat * 256 + d0.toNat) (ho : opt.length = ol.toNat) :
    bodyCrcOK (x :: d1 :: d0 :: ol :: pt :: hc :: (data ++ opt ++ dc :: post)) = (crc8 (data ++ opt) == dc) := by
  have hn : d1.toNat * 256 + d0.toNat + ol.toNat = (data ++ opt).length := by simp [hd, ho]
  have h1 : slice (x :: d1 :: d0 :: ol :: pt :: hc :: (data ++ opt ++ dc :: post)) 6 (data ++ opt).length
      = data ++ opt := slice_zero_append (data ++ opt) (dc :: post)
  have h2 : byteAt (x :: d1 :: d0 :: ol :: pt :: hc :: (data ++ opt ++ dc :: post)) (6 + (data ++ opt).length) = dc := by
    rw [Nat.add_comm]
    exact byteAt_append_length (data ++ opt) dc post
  rw [bodyCrcOK, bodyLen_header, hn, h1, h2]

theorem packetOf_frame (hd : data.length = d1.toNat * 256 + d0.toNat) (ho : opt.length = ol.toNat) :
    packetOf (x :: d1 :: d0 :: ol :: pt :: hc :: (data ++ opt ++ dc :: post))
      = { ptype := classify pt, data := data, opt := opt } := by
  have h1 : slice (x :: d1 :: d0 :: ol :: pt :: hc :: (data ++ opt ++ dc :: post)) 6 data.length = data := by
    rw [List.append_assoc]
    exact slice_zero_append data (opt ++ dc :: post)
  have h2 : slice (x :: d1 :: d0 :: ol :: pt :: hc :: (data ++ opt ++ dc :: post)) (6 + data.length) opt.length = opt := by
    rw [Nat.add_comm]
    exact slice_append_exact data opt (dc :: post)
  rw [packetOf, dataLen_header, optLen_header, ← hd, ← ho, h1, h2]
  rfl

end

/-! ### No reader looks past its bytes -/

section
variable {b : List Byte} (y : List Byte)

theorem hdrOK_append (h : 6 ≤ b.length) : hdrOK (b ++ y) = hdrOK b := by
  obtain ⟨x, d1, d0, ol, pt, hc, tl, rfl⟩ := exists_header h
  simp

theorem frameLen_append (h : 6 ≤ b.length) : frameLen (b ++ y) = frameLen b := by
  obtain ⟨x, d1, d0, ol, pt, hc, tl, rfl⟩ := exists_header h
  simp

theorem bodyLen_append (h : 6 ≤ b.length) : bodyLen (b ++ y) = bodyLen b := by
  obtain ⟨x, d1, d0, ol, pt, hc, tl, rfl⟩ := exists_header h
  simp

theorem bodyCrcOK_append (h : 6 ≤ b.length) (hl : frameLen b ≤ b.length) : bodyCrcOK (b ++ y) = bodyCrcOK b := by
  rw [frameLen_eq] at hl
  rw [bodyCrcOK, bodyCrcOK, bodyLen_append y h, slice_append_left (by omega), byteAt_append_left (by omega)]

theorem packetOf_append (h : 6 ≤ b.length) (hl : frameLen b ≤ b.length) : packetOf (b ++ y) = packetOf b := by
  obtain ⟨x, d1, d0, ol, pt, hc, tl, rfl⟩ := exists_header h
  simp only [frameLen_header, List.length_cons] at hl
  obtain ⟨data, opt, dc, post, rfl, hd, ho⟩ :=
    exists_body (tl := tl) (n := d1.toNat * 256 + d0.toNat) (m := ol.toNat) (by omega)
  have := packetOf_frame x d1 d0 ol pt hc dc data opt (post ++ y) hd ho
  simp only [List.cons_append, List.append_assoc] at this ⊢
  rw [this]
  simpa using (packetOf_frame x d1 d0 ol pt hc dc data opt post hd ho).symm

end

theorem frameLen_ge (b : List Byte) : 7 ≤ frameLen b := by rw [frameLen_eq]; omega

theorem frameLen_le (b : List Byte) : frameLen b ≤ Config.maxFrame := by
  have h1 := (byteAt b 1).isLt
  have h2 := (byteAt b (1 + 1)).isLt
  have h3 := (byteAt b 3).isLt
  simp only [frameLen, dataLen, be16, optLen, Config.maxFrame]
  omega

/-! ### Packet types and the serializer -/

theorem ptypeCode_classify (c : Byte) : ptypeCode (classify c) = c := by
  unfold classify
  split
  · simp_all [ptypeCode]
  · split
    · simp_all [ptypeCode]
    · rfl

theorem classify_ptypeCode {t : PacketType} (h : ptypeOk t = true) : classify (ptypeCode t) = t := by
  cases t with
  | radioErp1 => rfl
  | response => rfl
  | unsupported c => simp_all [ptypeOk, ptypeCode, classify]

theorem ptypeOk_classify (c : Byte) : ptypeOk (classify c) = true := by
  unfold classify
  split
  · rfl
  · split
    · rfl
    · simp_all [ptypeOk]

theorem pktOk_iff (p : Esp3Packet) :
    pktOk p = true ↔ p.data.length ≤ 65535 ∧ p.opt.length ≤ 255 ∧ ptypeOk p.ptype = true := by
  simp only [pktOk, Bool.and_eq_true, decide_eq_true_eq, and_assoc]
  rfl

/-- The serializer's output, byte by byte. -/
theorem ser_eq (p : Esp3Packet) :
    ser p = 0x55 :: BitVec.ofNat 8 (p.data.length / 256) :: BitVec.ofNat 8 p.data.length :: BitVec.ofNat 8 p.opt.length
      :: ptypeCode p.ptype
      :: crc8 [BitVec.ofNat 8 (p.data.length / 256), BitVec.ofNat 8 p.data.length, BitVec.ofNat 8 p.opt.length,
          ptypeCode p.ptype]
      :: (p.data ++ p.opt ++ [crc8 (p.data ++ p.opt)]) := by
  simp [ser, Config.sync]

theorem ser_length (p : Esp3Packet) : (ser p).length = 7 + p.data.length + p.opt.length := by
  simp [ser_eq]; omega

/-- The length bytes of a legal packet read back as its lengths. -/
theorem ser_lengths {p : Esp3Packet} (h : pktOk p = true) :
    (BitVec.ofNat 8 (p.data.length / 256)).toNat * 256 + (BitVec.ofNat 8 p.data.length).toNat = p.data.length
      ∧ (BitVec.ofNat 8 p.opt.length).toNat = p.opt.length := by
  obtain ⟨h1, h2, -⟩ := (pktOk_iff p).mp h
  simp only [BitVec.toNat_ofNat]
  omega

theorem hdrOK_ser (p : Esp3Packet) (post : List Byte) : hdrOK (ser p ++ post) = true := by
  simp [ser_eq]

theorem frameLen_ser {p : Esp3Packet} (h : pktOk p = true) (post : List Byte) :
    frameLen (ser p ++ post) = (ser p).length := by
  obtain ⟨h1, h2⟩ := ser_lengths h
  rw [ser_length, ser_eq]
  simp only [List.cons_append, frameLen_header]
  omega

theorem bodyCrcOK_ser {p : Esp3Packet} (h : pktOk p = true) (post : List Byte) : bodyCrcOK (ser p ++ post) = true := by
  obtain ⟨h1, h2⟩ := ser_lengths h
  have := bodyCrcOK_frame 0x55 (BitVec.ofNat 8 (p.data.length / 256)) (BitVec.ofNat 8 p.data.length)
    (BitVec.ofNat 8 p.opt.length) (ptypeCode p.ptype)
    (crc8 [BitVec.ofNat 8 (p.data.length / 256), BitVec.ofNat 8 p.data.length, BitVec.ofNat 8 p.opt.length,
      ptypeCode p.ptype]) (crc8 (p.data ++ p.opt)) p.data p.opt post h1.symm h2.symm
  simpa [ser_eq] using this

theorem packetOf_ser {p : Esp3Packet} (h : pktOk p = true) (post : List Byte) : packetOf (ser p ++ post) = p := by
  obtain ⟨h1, h2⟩ := ser_lengths h
  obtain ⟨-, -, h3⟩ := (pktOk_iff p).mp h
  have := packetOf_frame 0x55 (BitVec.ofNat 8 (p.data.length / 256)) (BitVec.ofNat 8 p.data.length)
    (BitVec.ofNat 8 p.opt.length) (ptypeCode p.ptype)
    (crc8 [BitVec.ofNat 8 (p.data.length / 256), BitVec.ofNat 8 p.data.length, BitVec.ofNat 8 p.opt.length,
      ptypeCode p.ptype]) (crc8 (p.data ++ p.opt)) p.data p.opt post h1.symm h2.symm
  rw [classify_ptypeCode h3] at this
  simpa [ser_eq] using this

/-- A complete valid frame is the serializer's output for the packet it carries, followed by the bytes after it. -/
theorem frame_eq_ser {b : List Byte} (h0 : byteAt b 0 = 0x55) (h6 : 6 ≤ b.length) (hh : hdrOK b = true)
    (hl : frameLen b ≤ b.length) (hb : bodyCrcOK b = true) :
    b = ser (packetOf b) ++ b.drop (frameLen b) ∧ pktOk (packetOf b) = true := by
  obtain ⟨x, d1, d0, ol, pt, hc, tl, rfl⟩ := exists_header h6
  simp only [frameLen_header, List.length_cons] at hl
  obtain ⟨data, opt, dc, post, rfl, hd, ho⟩ :=
    exists_body (tl := tl) (n := d1.toNat * 256 + d0.toNat) (m := ol.toNat) (by omega)
  rw [bodyCrcOK_frame x d1 d0 ol pt hc dc data opt post hd ho] at hb
  simp only [byteAt_cons_zero, hdrOK_header, beq_iff_eq] at h0 hh hb
  have hdrop : (x :: d1 :: d0 :: ol :: pt :: hc :: (data ++ opt ++ dc :: post)).drop
      (7 + (d1.toNat * 256 + d0.toNat) + ol.toNat) = post := by
    rw [show x :: d1 :: d0 :: ol :: pt :: hc :: (data ++ opt ++ dc :: post)
      = (x :: d1 :: d0 :: ol :: pt :: hc :: (data ++ opt ++ [dc])) ++ post by simp]
    exact List.drop_left' (by simp [hd, ho]; omega)
  have e1 : BitVec.ofNat 8 (data.length / 256) = d1 := by
    have := d0.isLt
    have := d1.isLt
    apply BitVec.eq_of_toNat_eq
    simp only [BitVec.toNat_ofNat]
    omega
  have e2 : BitVec.ofNat 8 data.length = d0 := by
    have := d0.isLt
    apply BitVec.eq_of_toNat_eq
    simp only [BitVec.toNat_ofNat]
    omega
  have e3 : BitVec.ofNat 8 opt.length = ol := by simp [ho]
  have := d1.isLt
  have := d0.isLt
  have := ol.isLt
  rw [packetOf_frame x d1 d0 ol pt hc dc data opt post hd ho, frameLen_header, hdrop, pktOk_iff]
  refine ⟨?_, ?_, ?_, ptypeOk_classify pt⟩
  · rw [ser_eq]
    simp [e1, e2, e3, ptypeCode_classify, h0, hh, hb]
  · simp only [hd]; omega
  · simp only [ho]; omega

end Sys2Proof.Machine
end

