-- ==== Sys2Proof/Laws/Drain.lean ====
section
/-! SUPPORT. One-shot decode, the drain step and draining (41_framer.md §2, §3): what each does on the wire layout, that a
case once decided is not changed by later bytes, and that draining is confluent with arrival. -/

namespace Sys2Proof.Machine

/-! ### The cases on written-out buffers -/

@[simp] theorem drainCase_nil : drainCase [] = none := rfl

theorem drainCase_garbage {x : Byte} (tl : List Byte) (h : x ≠ 0x55) : drainCase (x :: tl) = some .skip := by
  rw [drainCase, if_neg (by simp), if_pos (show byteAt (x :: tl) 0 ≠ Config.sync from h)]

theorem drainCase_short {tl : List Byte} (h : tl.length < 5) : drainCase (0x55 :: tl) = none := by
  simp [drainCase, Config.sync, h]

section
variable {d1 d0 ol pt hc dc : Byte} {tl data opt post : List Byte}

theorem drainCase_badHeader (h : crc8 [d1, d0, ol, pt] ≠ hc) :
    drainCase (0x55 :: d1 :: d0 :: ol :: pt :: hc :: tl) = some .badHeader := by
  simp [drainCase, Config.sync, h]

theorem drainCase_incomplete (h : crc8 [d1, d0, ol, pt] = hc)
    (hl : tl.length < d1.toNat * 256 + d0.toNat + ol.toNat + 1) :
    drainCase (0x55 :: d1 :: d0 :: ol :: pt :: hc :: tl) = none := by
  have : tl.length + 1 + 1 + 1 + 1 + 1 + 1 < 7 + (d1.toNat * 256 + d0.toNat) + ol.toNat := by omega
  simp [drainCase, Config.sync, h, this]

theorem drainCase_complete (h : crc8 [d1, d0, ol, pt] = hc) (hd : data.length = d1.toNat * 256 + d0.toNat)
    (ho : opt.length = ol.toNat) :
    drainCase (0x55 :: d1 :: d0 :: ol :: pt :: hc :: (data ++ opt ++ dc :: post))
      = if crc8 (data ++ opt) = dc then some .packet else some .badData := by
  have hl : ¬ (data ++ opt ++ dc :: post).length + 1 + 1 + 1 + 1 + 1 + 1
      < 7 + (d1.toNat * 256 + d0.toNat) + ol.toNat := by simp; omega
  simp only [drainCase, bodyCrcOK_frame 0x55 d1 d0 ol pt hc dc data opt post hd ho, hdrOK_header, frameLen_header,
    List.length_cons, byteAt_cons_zero, Config.sync, h]
  by_cases hc8 : crc8 (data ++ opt) = dc <;> simp [hc8] <;> omega

theorem decodeFrame_garbage {x : Byte} (tl : List Byte) (h : x ≠ 0x55) :
    decodeFrame (x :: tl) = .err .syncByteMismatch := by
  rw [decodeFrame, if_neg (by simp), if_pos (show byteAt (x :: tl) 0 ≠ Config.sync from h)]

theorem decodeFrame_short (h : tl.length < 5) : decodeFrame (0x55 :: tl) = .err .truncatedFrame := by
  simp [decodeFrame, Config.sync, h]

theorem decodeFrame_header :
    decodeFrame (0x55 :: d1 :: d0 :: ol :: pt :: hc :: tl)
      = if crc8 [d1, d0, ol, pt] ≠ hc then .err .headerCrcMismatch
        else if tl.length < d1.toNat * 256 + d0.toNat + ol.toNat + 1 then .err .truncatedFrame
        else if bodyCrcOK (0x55 :: d1 :: d0 :: ol :: pt :: hc :: tl) = false then .err .dataCrcMismatch
        else .ok (packetOf (0x55 :: d1 :: d0 :: ol :: pt :: hc :: tl)) := by
  have hlen : (tl.length + 1 + 1 + 1 + 1 + 1 + 1 < 7 + (d1.toNat * 256 + d0.toNat + ol.toNat))
      = (tl.length < d1.toNat * 256 + d0.toNat + ol.toNat + 1) := by
    apply propext; omega
  simp only [decodeFrame, Config.sync, List.length_cons, byteAt_cons_zero, bodyLen_header, hlen]
  simp [slice, byteAt]

end

/-! ### One spec lemma for the drain case -/

/-- What each case says of the buffer it applies to (41_framer.md R142). -/
def caseFacts (b : List Byte) : DrainCase → Prop
  | .skip => byteAt b 0 ≠ 0x55
  | .badHeader => byteAt b 0 = 0x55 ∧ 6 ≤ b.length ∧ hdrOK b = false
  | .badData => byteAt b 0 = 0x55 ∧ 6 ≤ b.length ∧ hdrOK b = true ∧ frameLen b ≤ b.length ∧ bodyCrcOK b = false
  | .packet => byteAt b 0 = 0x55 ∧ 6 ≤ b.length ∧ hdrOK b = true ∧ frameLen b ≤ b.length ∧ bodyCrcOK b = true

/-- What having a case says about the buffer. -/
theorem drainCase_spec {b : List Byte} {c : DrainCase} (h : drainCase b = some c) : b ≠ [] ∧ caseFacts b c := by
  unfold drainCase at h
  split at h
  · cases h
  rename_i h0
  refine ⟨by rintro rfl; simp at h0, ?_⟩
  split at h
  · cases h; simpa [caseFacts, Config.sync] using ‹_›
  rename_i h1
  simp only [Config.sync, not_not] at h1
  split at h
  · cases h
  split at h
  · cases h; exact ⟨h1, by omega, ‹_›⟩
  rename_i h3
  split at h
  · cases h
  split at h
  · cases h; exact ⟨h1, by omega, by simpa using h3, by omega, ‹_›⟩
  · cases h; exact ⟨h1, by omega, by simpa using h3, by omega, by simpa using ‹¬ bodyCrcOK b = false›⟩

/-- What having no case says: the three idle kinds of 10_state.md R23. -/
theorem drainCase_none {b : List Byte} (h : drainCase b = none) :
    b = [] ∨ (b ≠ [] ∧ byteAt b 0 = 0x55 ∧ b.length < 6)
      ∨ (byteAt b 0 = 0x55 ∧ 6 ≤ b.length ∧ hdrOK b = true ∧ b.length < frameLen b) := by
  unfold drainCase at h
  split at h
  · left; simpa using ‹b.length = 0›
  rename_i h0
  split at h
  · cases h
  rename_i h1
  simp only [Config.sync, not_not] at h1
  split at h
  · right; left; exact ⟨by rintro rfl; simp at h0, h1, ‹_›⟩
  split at h
  · cases h
  rename_i h3
  split at h
  · right; right; exact ⟨h1, by omega, by simpa using h3, ‹_›⟩
  split at h <;> cases h

/-- `NeedsWork` holds exactly when a case applies (41_framer.md R141). -/
theorem needsWork_iff (b : List Byte) : needsWork b = true ↔ ∃ c, drainCase b = some c := by
  constructor
  · intro h
    cases hc : drainCase b with
    | some c => exact ⟨c, rfl⟩
    | none =>
      exfalso
      obtain rfl | ⟨-, h0, h1⟩ | ⟨h0, h1, h2, h3⟩ := drainCase_none hc
      · simp [needsWork] at h
      · simp [needsWork, h0, Config.sync] at h
        omega
      · simp [needsWork, h0, h2, Config.sync] at h
        omega
  · rintro ⟨c, h⟩
    obtain ⟨hne, h⟩ := drainCase_spec h
    have := List.length_pos_iff.mpr hne
    cases c with
    | skip =>
      have h1 : (byteAt b 0 != Config.sync) = true := bne_iff_ne.mpr h
      simp [needsWork, h1]
      omega
    | badHeader =>
      obtain ⟨h1, h2, h3⟩ := h
      simp [needsWork, h1, h2, h3, Config.sync]
    | badData =>
      obtain ⟨h1, h2, h3, h4, -⟩ := h
      simp [needsWork, h1, h2, h3, h4, Config.sync]
    | packet =>
      obtain ⟨h1, h2, h3, h4, -⟩ := h
      simp [needsWork, h1, h2, h3, h4, Config.sync]

theorem idle_iff (b : List Byte) : needsWork b = false ↔ drainCase b = none := by
  rw [← Bool.not_eq_true, needsWork_iff]
  cases drainCase b <;> simp

/-- An idle buffer is below capacity. -/
theorem idle_length {b : List Byte} (h : drainCase b = none) : b.length < Config.bufCap := by
  have hf := frameLen_le b
  simp only [Config.maxFrame, Config.bufCap] at hf ⊢
  obtain rfl | ⟨-, -, h⟩ | ⟨-, -, -, h⟩ := drainCase_none h
  · simp
  · omega
  · omega

/-- How many bytes a case removes: at least one, and no more than there are. -/
theorem drainRemoves_bounds {b : List Byte} {c : DrainCase} (h : drainCase b = some c) :
    1 ≤ drainRemoves c b ∧ drainRemoves c b ≤ b.length := by
  obtain ⟨hne, h⟩ := drainCase_spec h
  have := List.length_pos_iff.mpr hne
  have := frameLen_ge b
  cases c <;> simp only [drainRemoves] <;> simp only [caseFacts] at h <;> omega

/-! ### Later bytes change no case -/

theorem drainCase_append {b : List Byte} {c : DrainCase} (y : List Byte) (h : drainCase b = some c) :
    drainCase (b ++ y) = some c := by
  obtain ⟨hne, h⟩ := drainCase_spec h
  have hpos := List.length_pos_iff.mpr hne
  have h0 : byteAt (b ++ y) 0 = byteAt b 0 := byteAt_append_left hpos
  cases c with
  | skip => rw [drainCase, if_neg (by simp [hne]), if_pos (by rw [h0]; exact h)]
  | badHeader =>
    obtain ⟨h1, h6, h2⟩ := h
    simp [drainCase, h0, h1, h2, hne, hdrOK_append y h6, Config.sync]
    omega
  | badData =>
    obtain ⟨h1, h6, h2, h3, h4⟩ := h
    simp [drainCase, h0, h1, h2, h4, hne, hdrOK_append y h6, frameLen_append y h6, bodyCrcOK_append y h6 h3, Config.sync]
    omega
  | packet =>
    obtain ⟨h1, h6, h2, h3, h4⟩ := h
    simp [drainCase, h0, h1, h2, h4, hne, hdrOK_append y h6, frameLen_append y h6, bodyCrcOK_append y h6 h3, Config.sync]
    omega

theorem drainEmission_append {b : List Byte} {c : DrainCase} (y : List Byte) (h : drainCase b = some c) :
    drainEmission c (b ++ y) = drainEmission c b := by
  obtain ⟨-, h⟩ := drainCase_spec h
  cases c with
  | skip => rfl
  | badHeader => rfl
  | badData => rfl
  | packet => simp only [drainEmission]; rw [packetOf_append y h.2.1 h.2.2.2.1]

theorem drainRemoves_append {b : List Byte} {c : DrainCase} (y : List Byte) (h : drainCase b = some c) :
    drainRemoves c (b ++ y) = drainRemoves c b := by
  obtain ⟨-, h⟩ := drainCase_spec h
  cases c with
  | skip => rfl
  | badHeader => rfl
  | badData => rfl
  | packet => exact frameLen_append y h.2.1

/-- What a drain step did, when one was enabled. -/
theorem drainStep_spec {depth : QueueDepth} {b b' : List Byte} {q q' : List FrameResult}
    (h : drainStep depth b q = some (b', q')) :
    ∃ c, drainCase b = some c ∧ b' = b.drop (drainRemoves c b) ∧ q' = q ++ (drainEmission c b).toList
      ∧ (drainEmission c b ≠ none → hasRoom depth q = true) := by
  unfold drainStep at h
  split at h
  · cases h
  rename_i c hc
  refine ⟨c, hc, ?_⟩
  split at h
  · rename_i he
    cases h
    simp [he]
  · rename_i r he
    split at h
    · cases h
      simp [he, emit, ‹hasRoom depth q = true›]
    · cases h

/-- An enabled step of an unbounded queue, from its case. -/
theorem drainStep_of_case {b : List Byte} {c : DrainCase} (q : List FrameResult) (h : drainCase b = some c) :
    drainStep .unbounded b q = some (b.drop (drainRemoves c b), q ++ (drainEmission c b).toList) := by
  unfold drainStep
  rw [h]
  cases he : drainEmission c b <;> simp [he, emit, hasRoom]

theorem drainStep_of_room {depth : QueueDepth} {b : List Byte} {c : DrainCase} {q : List FrameResult}
    (h : drainCase b = some c) (hr : hasRoom depth q = true) :
    drainStep depth b q = some (b.drop (drainRemoves c b), q ++ (drainEmission c b).toList) := by
  unfold drainStep
  rw [h]
  cases he : drainEmission c b <;> simp [he, emit, hr]

theorem drainStep_idle {depth : QueueDepth} {b : List Byte} (q : List FrameResult) (h : drainCase b = none) :
    drainStep depth b q = none := by
  simp [drainStep, h]

theorem drainStep_shrinks {depth : QueueDepth} {b b' : List Byte} {q q' : List FrameResult}
    (h : drainStep depth b q = some (b', q')) : b'.length < b.length := by
  obtain ⟨c, hc, rfl, -, -⟩ := drainStep_spec h
  have := drainRemoves_bounds hc
  simp
  omega

/-- Bytes that arrive later ride along behind a step. -/
theorem drainStep_append {depth : QueueDepth} {b b' : List Byte} {q q' : List FrameResult} (y : List Byte)
    (h : drainStep depth b q = some (b', q')) :
    drainStep .unbounded (b ++ y) q = some (b' ++ y, q') := by
  obtain ⟨c, hc, rfl, rfl, -⟩ := drainStep_spec h
  rw [drainStep_of_case q (drainCase_append y hc), drainRemoves_append y hc, drainEmission_append y hc,
    List.drop_append_of_le_length (drainRemoves_bounds hc).2]

/-! ### Draining -/

theorem drainSteps_idle (n : Nat) {b : List Byte} (q : List FrameResult) (h : drainCase b = none) :
    drainSteps n b q = (b, q) := by
  cases n with
  | zero => rfl
  | succ n => simp [drainSteps, drainStep_idle q h]

/-- More fuel than bytes changes nothing. -/
theorem drainSteps_fuel {n m : Nat} {b : List Byte} (q : List FrameResult) (hn : b.length ≤ n) (hm : b.length ≤ m) :
    drainSteps n b q = drainSteps m b q := by
  induction n generalizing m b q with
  | zero =>
    have : b = [] := by simpa using hn
    subst this
    rw [drainSteps_idle m q drainCase_nil]
    rfl
  | succ n ih =>
    cases m with
    | zero =>
      have : b = [] := by simpa using hm
      subst this
      rw [drainSteps_idle (n + 1) q drainCase_nil]
      rfl
    | succ m =>
      simp only [drainSteps]
      cases hs : drainStep .unbounded b q with
      | none => rfl
      | some x =>
        obtain ⟨b', q'⟩ := x
        have := drainStep_shrinks hs
        exact ih q' (by omega) (by omega)

theorem drain_idle {b : List Byte} (q : List FrameResult) (h : drainCase b = none) : drain b q = (b, q) :=
  drainSteps_idle _ q h

theorem drain_step {b b' : List Byte} {q q' : List FrameResult} (h : drainStep .unbounded b q = some (b', q')) :
    drain b q = drain b' q' := by
  have hs := drainStep_shrinks h
  rw [drain, drain, drainSteps_fuel q (Nat.le_refl _) (show b.length ≤ b.length - 1 + 1 by omega)]
  simp only [drainSteps, h]
  exact drainSteps_fuel q' (by omega) (Nat.le_refl _)

/-- Draining by cases: idle, or one step and the rest. -/
theorem drain_case {b : List Byte} {c : DrainCase} (q : List FrameResult) (h : drainCase b = some c) :
    drain b q = drain (b.drop (drainRemoves c b)) (q ++ (drainEmission c b).toList) :=
  drain_step (drainStep_of_case q h)

/-- Strong induction along a drain: the idle buffers, and one step. -/
theorem drain_induction {P : List Byte → Prop} (idle : ∀ b, drainCase b = none → P b)
    (next : ∀ b c, drainCase b = some c → P (b.drop (drainRemoves c b)) → P b) : ∀ b, P b := by
  intro b
  induction hn : b.length using Nat.strong_induction_on generalizing b with
  | _ n ih =>
    cases hc : drainCase b with
    | none => exact idle b hc
    | some c =>
      have := drainRemoves_bounds hc
      exact next b c hc (ih _ (by simp; omega) _ rfl)

/-- The engine is idle after draining. -/
theorem drain_fst_idle (b : List Byte) : ∀ q, drainCase (drain b q).1 = none := by
  induction b using drain_induction with
  | idle b h => intro q; rw [drain_idle q h]; exact h
  | next b c h ih => intro q; rw [drain_case q h]; exact ih _

/-- Draining only appends to the queue, and the queue does not steer it. -/
theorem drain_queue (b : List Byte) : ∀ q, drain b q = ((drain b []).1, q ++ (drain b []).2) := by
  induction b using drain_induction with
  | idle b h => intro q; simp [drain_idle _ h]
  | next b c h ih =>
    intro q
    rw [drain_case q h, ih, drain_case [] h, ih ([] ++ _)]
    simp

/-- Draining what has arrived and then the rest is draining it all: the reason of 41_framer.md R158. -/
theorem drain_append (b y : List Byte) : ∀ q, drain (b ++ y) q = drain ((drain b q).1 ++ y) (drain b q).2 := by
  induction b using drain_induction with
  | idle b h => intro q; rw [drain_idle q h]
  | next b c h ih =>
    intro q
    rw [drain_step (drainStep_append y (drainStep_of_case q h)), drain_case q h]
    exact ih _

theorem drain_length (b : List Byte) : ∀ q, (drain b q).1.length ≤ b.length := by
  induction b using drain_induction with
  | idle b h => intro q; rw [drain_idle q h]
  | next b c h ih =>
    intro q
    have := drainRemoves_bounds h
    have := ih (q ++ (drainEmission c b).toList)
    rw [drain_case q h]
    simp at this
    omega

/-- A serialized packet at the head is the packet case (41_framer.md R159). -/
theorem drainCase_ser {p : Esp3Packet} (h : pktOk p = true) (post : List Byte) :
    drainCase (ser p ++ post) = some .packet := by
  have h1 : (ser p ++ post).length = 7 + p.data.length + p.opt.length + post.length := by
    rw [List.length_append, ser_length]
  have h2 : byteAt (ser p ++ post) 0 = 0x55 := by rw [ser_eq]; rfl
  have h3 : frameLen (ser p ++ post) = 7 + p.data.length + p.opt.length := by rw [frameLen_ser h, ser_length]
  simp only [drainCase, h1, h2, h3, hdrOK_ser, bodyCrcOK_ser h, Config.sync]
  simp
  omega

theorem drain_ser {p : Esp3Packet} (h : pktOk p = true) (post : List Byte) (q : List FrameResult) :
    drain (ser p ++ post) q = drain post (q ++ [.ok p]) := by
  rw [drain_case q (drainCase_ser h post), drainRemoves, frameLen_ser h, List.drop_left, drainEmission, packetOf_ser h]
  rfl

/-- Garbage without a sync byte is skipped silently (41_framer.md R143). -/
theorem drain_garbage {g : List Byte} (h : ∀ b ∈ g, b ≠ 0x55) (post : List Byte) (q : List FrameResult) :
    drain (g ++ post) q = drain post q := by
  induction g with
  | nil => rfl
  | cons x g ih =>
    have hx := drainCase_garbage (g ++ post) (h x (by simp))
    rw [List.cons_append, drain_case q hx]
    simpa [drainRemoves, drainEmission] using ih fun b hb => h b (by simp [hb])

end Sys2Proof.Machine
end

