-- ==== Sys2Proof/Laws/Encoding.lean ====
section
/-! SUPPORT. The fields of an assembled command word, and the decoder on it (30_encoding.md R60 to R64). -/

namespace Sys2Proof

@[simp] theorem cmdOp_cmdWord (op imm : Byte) : cmdOp (cmdWord op imm) = op := by
  apply BitVec.eq_of_getLsbD_eq
  intro i hi
  rw [cmdOp, cmdWord, BitVec.getLsbD_extractLsb', BitVec.getLsbD_append]
  simp [hi]

@[simp] theorem cmdImm_cmdWord (op imm : Byte) : cmdImm (cmdWord op imm) = imm := by
  apply BitVec.eq_of_getLsbD_eq
  intro i hi
  rw [cmdImm, cmdWord, BitVec.getLsbD_extractLsb', BitVec.getLsbD_append]
  simp [hi]

/-- A command word is its two fields. -/
theorem cmdWord_fields (w : CmdWord) : cmdWord (cmdOp w) (cmdImm w) = w := by
  apply BitVec.eq_of_getLsbD_eq
  intro i hi
  rw [cmdWord, BitVec.getLsbD_append, cmdOp, cmdImm, BitVec.getLsbD_extractLsb', BitVec.getLsbD_extractLsb']
  by_cases h : i < 8
  · simp [h]
  · have h1 : i - 8 < 8 := by omega
    have h2 : 8 + (i - 8) = i := by omega
    simp [h, h1, h2]

theorem decode_crcUpd (b : Byte) : decode (.cmd16 (cmdWord 0x02 b)) = .ok (.crcUpd b) := by
  simp [decode, decodeCmd]

theorem decode_frmPush (b : Byte) : decode (.cmd16 (cmdWord 0x10 b)) = .ok (.frmPush b) := by
  simp [decode, decodeCmd]

end Sys2Proof
end

