-- ==== Sys2Proof/Laws/Erp1.lean ====
section
/-! SUPPORT. The big-endian word and the payload bits the extractor reads (00_scope.md R9, 20_memory.md R43). -/

namespace Sys2Proof.Machine

/-- `BE32` as the number of 00_scope.md R9. -/
theorem be32_toNat (s : List Byte) (a : Nat) :
    (be32 s a).toNat = (byteAt s a).toNat * 2 ^ 24 + (byteAt s (a + 1)).toNat * 2 ^ 16 + (byteAt s (a + 2)).toNat * 2 ^ 8
      + (byteAt s (a + 3)).toNat := by
  have h1 := (byteAt s (a + 1)).isLt
  have h2 := (byteAt s (a + 2)).isLt
  have h3 := (byteAt s (a + 3)).isLt
  simp only [be32, BitVec.toNat_append]
  rw [← Nat.shiftLeft_add_eq_or_of_lt h3, ← Nat.shiftLeft_add_eq_or_of_lt h2, ← Nat.shiftLeft_add_eq_or_of_lt h1]
  simp only [Nat.shiftLeft_eq]
  omega

theorem payloadBit_lt (p : List Byte) (i : Nat) : payloadBit p i < 2 := Nat.mod_lt _ (by omega)

/-- A payload bit inside the payload is that bit of its byte, the most significant first (20_memory.md R43). -/
theorem payloadBit_eq {p : List Byte} {i : Nat} (h : i / 8 < p.length) :
    payloadBit p i = 1 ↔ (p[i / 8]).getLsbD (7 - i % 8) = true := by
  rw [payloadBit, byteAt_eq_getElem h, BitVec.getLsbD, Nat.testBit_eq_decide_div_mod_eq, Nat.shiftRight_eq_div_pow]
  simp

end Sys2Proof.Machine
end

