-- ==== Sys2Proof/Laws/PerInstr.lean ====
section
/-! SUPPORT. One statement per instruction: its encoding shows its row's match under the row's mask (30_encoding.md R62), or
is a packet-type byte (41_framer.md R120). -/

namespace Sys2Proof.Laws.EncodeMatchesRow

/-- The encoding is a command word of the instruction's row, or, for a packet-type row, a byte. -/
def Statement (i : Instr) : Prop :=
  match cmdRow i with
  | some (value, mask) => ∃ w, encode i = .cmd16 w ∧ w &&& mask = value
  | none => ∃ b, encode i = .ptype8 b

/-- Masking out `IMM8` leaves the row's `OP`. -/
theorem cmdWord_mask (op imm : Byte) : cmdWord op imm &&& 0xFF00#16 = cmdWord op 0 := by
  apply BitVec.eq_of_getLsbD_eq
  intro i hi
  have mask : ∀ j : Fin 16, (0xFF00#16).getLsbD j.val = !decide (j.val < 8) := by decide
  rw [BitVec.getLsbD_and, cmdWord, cmdWord, BitVec.getLsbD_append, BitVec.getLsbD_append, mask ⟨i, hi⟩]
  by_cases h : i < 8 <;> simp [h]

theorem crcInit : Statement .crcInit := ⟨_, rfl, by decide⟩
theorem crcUpd (b : Byte) : Statement (.crcUpd b) := ⟨_, rfl, cmdWord_mask 0x02 b⟩
theorem crcRd : Statement .crcRd := ⟨_, rfl, by decide⟩
theorem frmPush (b : Byte) : Statement (.frmPush b) := ⟨_, rfl, cmdWord_mask 0x10 b⟩
theorem frmPop : Statement .frmPop := ⟨_, rfl, by decide⟩
theorem frmStat : Statement .frmStat := ⟨_, rfl, by decide⟩
theorem frmDec : Statement .frmDec := ⟨_, rfl, by decide⟩
theorem erp1Ext : Statement .erp1Ext := ⟨_, rfl, by decide⟩
theorem fldExt : Statement .fldExt := ⟨_, rfl, by decide⟩
theorem reset : Statement .reset := ⟨_, rfl, by decide⟩
theorem ptypeRadioErp1 : Statement .ptypeRadioErp1 := ⟨_, rfl⟩
theorem ptypeResponse : Statement .ptypeResponse := ⟨_, rfl⟩
theorem ptypeUnsupported (c : Byte) : Statement (.ptypeUnsupported c) := ⟨_, rfl⟩

end Sys2Proof.Laws.EncodeMatchesRow
end

