-- ==== Sys2Proof/Laws/State.lean ====
section
/-! SUPPORT. The fields of the state after each shared operation that makes a state, one lemma a field, and the values at
launch. A record update itself reduces by `rfl`, so no lemma is needed for one. -/

namespace Sys2Proof.Machine

section
variable (s : State) (depth : QueueDepth)

@[simp] theorem resetBlock_crc : (resetBlock s).crc = 0x00 := rfl
@[simp] theorem resetBlock_fbuf : (resetBlock s).fbuf = [] := rfl
@[simp] theorem resetBlock_rq : (resetBlock s).rq = [] := rfl
@[simp] theorem resetBlock_refused : (resetBlock s).refused = s.refused := rfl
@[simp] theorem resetBlock_rqDepth : (resetBlock s).rqDepth = s.rqDepth := rfl
@[simp] theorem resetBlock_ports : (resetBlock s).ports = s.ports := rfl
@[simp] theorem resetBlock_inbox : (resetBlock s).inbox = s.inbox := rfl
@[simp] theorem resetBlock_out : (resetBlock s).out = s.out := rfl

@[simp] theorem powerOnReset_crc : (powerOnReset s).crc = 0x00 := rfl
@[simp] theorem powerOnReset_fbuf : (powerOnReset s).fbuf = [] := rfl
@[simp] theorem powerOnReset_rq : (powerOnReset s).rq = [] := rfl
@[simp] theorem powerOnReset_refused : (powerOnReset s).refused = s.refused := rfl
@[simp] theorem powerOnReset_rqDepth : (powerOnReset s).rqDepth = s.rqDepth := rfl
@[simp] theorem powerOnReset_ports : (powerOnReset s).ports = s.ports := rfl
@[simp] theorem powerOnReset_inbox : (powerOnReset s).inbox = s.inbox := rfl
@[simp] theorem powerOnReset_out : (powerOnReset s).out = .silent := rfl

/-- What a turn of the engine is: nothing, or one drain step. -/
theorem engineTurn_cases :
    (drainStep s.rqDepth s.fbuf s.rq = none ∧ engineTurn s = { s with out := .silent })
      ∨ ∃ b q, drainStep s.rqDepth s.fbuf s.rq = some (b, q)
          ∧ engineTurn s = { s with fbuf := b, rq := q, out := .silent } := by
  unfold engineTurn
  cases h : drainStep s.rqDepth s.fbuf s.rq with
  | none => exact .inl ⟨rfl, rfl⟩
  | some x => exact .inr ⟨x.1, x.2, rfl, rfl⟩

@[simp] theorem engineTurn_crc : (engineTurn s).crc = s.crc := by
  obtain ⟨-, h⟩ | ⟨b, q, -, h⟩ := engineTurn_cases s <;> rw [h]
@[simp] theorem engineTurn_refused : (engineTurn s).refused = s.refused := by
  obtain ⟨-, h⟩ | ⟨b, q, -, h⟩ := engineTurn_cases s <;> rw [h]
@[simp] theorem engineTurn_rqDepth : (engineTurn s).rqDepth = s.rqDepth := by
  obtain ⟨-, h⟩ | ⟨b, q, -, h⟩ := engineTurn_cases s <;> rw [h]
@[simp] theorem engineTurn_ports : (engineTurn s).ports = s.ports := by
  obtain ⟨-, h⟩ | ⟨b, q, -, h⟩ := engineTurn_cases s <;> rw [h]
@[simp] theorem engineTurn_inbox : (engineTurn s).inbox = s.inbox := by
  obtain ⟨-, h⟩ | ⟨b, q, -, h⟩ := engineTurn_cases s <;> rw [h]
@[simp] theorem engineTurn_out : (engineTurn s).out = .silent := by
  obtain ⟨-, h⟩ | ⟨b, q, -, h⟩ := engineTurn_cases s <;> rw [h]

@[simp] theorem launch_crc : (State.launch depth).crc = 0x00 := rfl
@[simp] theorem launch_fbuf : (State.launch depth).fbuf = [] := rfl
@[simp] theorem launch_rq : (State.launch depth).rq = [] := rfl
@[simp] theorem launch_refused : (State.launch depth).refused = false := rfl
@[simp] theorem launch_rqDepth : (State.launch depth).rqDepth = depth := rfl
@[simp] theorem launch_inbox : (State.launch depth).inbox = [] := rfl
@[simp] theorem launch_out : (State.launch depth).out = .silent := rfl

end

/-! ### The queue and its depth -/

/-- Emitting at most one result into a queue with room keeps it within its depth (41_framer.md R142). -/
theorem queueWithin_emit {d : QueueDepth} {q : List FrameResult} (o : Option FrameResult) (h : hasRoom d q = true) :
    queueWithin d (q ++ o.toList) = true := by
  cases d with
  | unbounded => rfl
  | bounded n =>
    simp only [hasRoom, queueWithin, decide_eq_true_eq] at h ⊢
    cases o <;> simp <;> omega

/-- A pop makes room. -/
theorem hasRoom_pop {d : QueueDepth} {r : FrameResult} {q : List FrameResult} (h : queueWithin d (r :: q) = true) :
    hasRoom d q = true := by
  cases d with
  | unbounded => rfl
  | bounded n =>
    simp [hasRoom, queueWithin] at h ⊢
    omega

theorem hasRoom_empty {d : QueueDepth} (h : queueDepthOk d = true) : hasRoom d [] = true := by
  cases d with
  | unbounded => rfl
  | bounded n => simpa [hasRoom, queueDepthOk] using h

/-- The invariant's four clauses. -/
theorem stateOk_iff (s : State) :
    StateOk s ↔ s.fbuf.length ≤ 65797 ∧ queueWithin s.rqDepth s.rq = true ∧ (∀ r ∈ s.rq, resultOk r = true)
      ∧ queueDepthOk s.rqDepth = true := by
  simp only [StateOk, invariant, Bool.and_eq_true, decide_eq_true_eq, List.all_eq_true, and_assoc]
  rfl

/-! ### The fields of the status word (10_state.md R29) -/

section
variable (s : State)

theorem status_mode : (statusWord s).extractLsb' 0 2 = modeCode (frameMode s.fbuf) := by
  apply BitVec.eq_of_getLsbD_eq
  intro i hi
  simp only [statusWord, BitVec.getLsbD_extractLsb', BitVec.getLsbD_append, hi, decide_true, Bool.true_and]
  rw [if_pos (by omega), Nat.zero_add]

theorem status_rqNonEmpty : (statusWord s).getLsbD 2 = rqNonEmpty s.rq := by
  simp only [statusWord, BitVec.getLsbD_append]
  simp

theorem status_rqFull : (statusWord s).getLsbD 3 = rqFull s.rqDepth s.rq := by
  simp only [statusWord, BitVec.getLsbD_append]
  simp

theorem status_bufLen : (statusWord s).extractLsb' 8 17 = BitVec.ofNat 17 s.fbuf.length := by
  apply BitVec.eq_of_getLsbD_eq
  intro i hi
  simp only [statusWord, BitVec.getLsbD_extractLsb', BitVec.getLsbD_append, hi, decide_true, Bool.true_and]
  repeat' split
  all_goals first | omega | (congr 1; omega)

theorem status_need : (statusWord s).extractLsb' 32 17 = BitVec.ofNat 17 (frameNeed s.fbuf) := by
  apply BitVec.eq_of_getLsbD_eq
  intro i hi
  simp only [statusWord, BitVec.getLsbD_extractLsb', BitVec.getLsbD_append, hi, decide_true, Bool.true_and]
  repeat' split
  all_goals first | omega | (congr 1; omega)

/-- The reserved fields read as zero. -/
theorem status_reserved : (statusWord s).extractLsb' 4 4 = 0 ∧ (statusWord s).extractLsb' 25 7 = 0
    ∧ (statusWord s).extractLsb' 49 15 = 0 := by
  refine ⟨?_, ?_, ?_⟩ <;>
  · apply BitVec.eq_of_getLsbD_eq
    intro i hi
    simp only [statusWord, BitVec.getLsbD_extractLsb', BitVec.getLsbD_append, hi, decide_true, Bool.true_and]
    repeat' split
    all_goals first | omega | simp

end

end Sys2Proof.Machine
end

