-- ==== Sys2Proof/Laws/Step.lean ====
section
/-! SUPPORT. What a step is for each head of the inbox, everything a step and a meaning can do (cited by later proofs in
place of unfolding them), and runs as lists of steps. -/

namespace Sys2Proof.Machine

/-! ### A step by the head of the inbox -/

section
variable {s : State} {rest : List Input}

theorem step_empty (h : s.inbox = []) : step s = .next (engineTurn s) := by
  simp [step, takeInput, h]

theorem step_engine (h : s.inbox = .engine :: rest) : step s = .next (engineTurn { s with inbox := rest }) := by
  simp [step, takeInput, h]

theorem step_powerOn (h : s.inbox = .powerOn :: rest) : step s = .next (powerOnReset { s with inbox := rest }) := by
  simp [step, takeInput, h]

theorem step_ptype {b : Byte} (h : s.inbox = .ptype b :: rest) :
    step s = exec (decodePtype b) { s with inbox := rest } := by
  simp [step, takeInput, h, decode]

theorem step_command {w : CmdWord} {ports : Ports} {i : Instr} (h : s.inbox = .command w ports :: rest)
    (hd : decode (.cmd16 w) = .ok i) : step s = exec i { s with inbox := rest, ports := ports } := by
  simp [step, takeInput, h, hd]

/-- A command placed before a state's own inbox runs on that state, with its port values driven. -/
theorem step_placed (s : State) {w : CmdWord} (ports : Ports) {i : Instr} (hd : decode (.cmd16 w) = .ok i) :
    step { s with inbox := .command w ports :: s.inbox } = exec i { s with ports := ports } := by
  simp [step, takeInput, hd]

theorem step_reserved {w : CmdWord} {ports : Ports} {e : DecodeError} (h : s.inbox = .command w ports :: rest)
    (hd : decode (.cmd16 w) = .error e) :
    step s = .next { s with inbox := rest, ports := ports, refused := true, out := .refusal .reservedCommand } := by
  simp [step, takeInput, h, hd, refuse]

end

theorem engineNext_iff (s : State) :
    engineNext s = true ↔ s.inbox = [] ∨ ∃ rest, s.inbox = .engine :: rest := by
  unfold engineNext
  split <;> simp_all

/-- A turn of the engine, whether scheduled or the default. -/
theorem step_of_engineNext {s : State} (h : engineNext s = true) :
    step s = .next (engineTurn { s with inbox := s.inbox.tail }) := by
  obtain h | ⟨rest, h⟩ := (engineNext_iff s).mp h
  · rw [step_empty h]
    cases s
    simp_all
  · rw [step_engine h]
    cases s
    simp_all

/-- Everything a step can be. -/
theorem step_shape (s : State) :
    (engineNext s = true ∧ step s = .next (engineTurn { s with inbox := s.inbox.tail }))
      ∨ (powerOnNext s = true ∧ step s = .next (powerOnReset { s with inbox := s.inbox.tail }))
      ∨ (∃ i ports, nextInstr s = some i ∧ (∀ w p, s.inbox.head? = some (.command w p) → ports = p)
          ∧ step s = exec i { s with inbox := s.inbox.tail, ports := ports })
      ∨ (∃ w ports rest e, s.inbox = .command w ports :: rest ∧ decode (.cmd16 w) = .error e
          ∧ step s = .next { s with inbox := rest, ports := ports, refused := true, out := .refusal .reservedCommand }) := by
  cases hs : s.inbox with
  | nil => exact .inl ⟨by simp [engineNext, hs], hs ▸ step_of_engineNext (by simp [engineNext, hs])⟩
  | cons x rest =>
    cases x with
    | engine => exact .inl ⟨by simp [engineNext, hs], step_engine hs⟩
    | powerOn => exact .inr (.inl ⟨by simp [powerOnNext, hs], step_powerOn hs⟩)
    | ptype b =>
      exact .inr (.inr (.inl ⟨decodePtype b, s.ports, by simp [nextInstr, hs, inputInstr], by simp, step_ptype hs⟩))
    | command w ports =>
      cases hd : decode (.cmd16 w) with
      | ok i =>
        exact .inr (.inr (.inl ⟨i, ports, by simp [nextInstr, hs, inputInstr, hd], by simp, step_command hs hd⟩))
      | error e => exact .inr (.inr (.inr ⟨w, ports, rest, e, rfl, hd, step_reserved hs hd⟩))

/-! ### What a turn of the engine does, by the case -/

theorem engineTurn_idle {s : State} (h : drainCase s.fbuf = none) : engineTurn s = { s with out := .silent } := by
  unfold engineTurn
  rw [drainStep_idle _ h]

/-- A case that emits nothing, or a queue with room: the step is taken. -/
theorem engineTurn_takes {s : State} {c : DrainCase} (h : drainCase s.fbuf = some c)
    (hr : hasRoom s.rqDepth s.rq = true ∨ drainEmission c s.fbuf = none) :
    engineTurn s = { s with fbuf := s.fbuf.drop (drainRemoves c s.fbuf),
                            rq := s.rq ++ (drainEmission c s.fbuf).toList, out := .silent } := by
  unfold engineTurn drainStep
  rw [h]
  rcases hr with hr | hr
  · cases he : drainEmission c s.fbuf <;> simp [he, hr, emit]
  · simp [hr]

/-- A case that emits, and a full queue: the engine holds (41_framer.md R142). -/
theorem engineTurn_holds {s : State} {c : DrainCase} {r : FrameResult} (h : drainCase s.fbuf = some c)
    (hr : hasRoom s.rqDepth s.rq = false) (he : drainEmission c s.fbuf = some r) :
    engineTurn s = { s with out := .silent } := by
  unfold engineTurn drainStep
  simp [h, he, hr]

/-! ### What each meaning can do -/

theorem execFrmPush_cases (b : Byte) (s : State) :
    ((needsWork s.fbuf = true ∨ Config.bufCap ≤ s.fbuf.length)
        ∧ execFrmPush b s = .next { s with out := .answered .busy })
      ∨ (needsWork s.fbuf = false ∧ s.fbuf.length < Config.bufCap
        ∧ execFrmPush b s = .next { s with fbuf := s.fbuf ++ [b], out := .answered .done }) := by
  unfold execFrmPush
  split
  · exact .inl ⟨by simp_all, rfl⟩
  · exact .inr ⟨by simp_all, by simp_all, rfl⟩

theorem execFrmPop_cases (s : State) :
    (s.rq = [] ∧ execFrmPop s = .next { s with out := .answered .empty })
      ∨ ∃ r q, s.rq = r :: q ∧ execFrmPop s = .next { s with rq := q, out := .answered (resultResponse r) } := by
  cases h : s.rq with
  | nil => exact .inl ⟨rfl, by simp [execFrmPop, h, answer]⟩
  | cons r q => exact .inr ⟨r, q, rfl, by simp [execFrmPop, h, answer]⟩

theorem execErp1Ext_cases (s : State) :
    (pktOk s.ports.pkt = true ∧ execErp1Ext s = .next { s with out := .answered (extractErp1 s.ports.pkt) })
      ∨ (pktOk s.ports.pkt = false
        ∧ execErp1Ext s = .next { s with refused := true, out := .refusal .operandInvariant }) := by
  unfold execErp1Ext pktPort
  cases pktOk s.ports.pkt
  · exact .inr ⟨rfl, rfl⟩
  · exact .inl ⟨rfl, rfl⟩

theorem widthOk_iff (w : Nat) : widthOk w = true ↔ 1 ≤ w ∧ w ≤ 32 := by
  simp only [widthOk, Bool.and_eq_true, decide_eq_true_eq]
  rfl

theorem execFldExt_cases (s : State) :
    (1 ≤ s.ports.width.toNat ∧ s.ports.width.toNat ≤ 32 ∧ execFldExt s = .next { s with
        out := .answered (extractField s.ports.payload s.ports.offset.toNat s.ports.width.toNat) })
      ∨ ((s.ports.width.toNat = 0 ∨ 32 < s.ports.width.toNat)
        ∧ execFldExt s = .next { s with refused := true, out := .refusal .fieldWidth }) := by
  unfold execFldExt widthPort
  cases h : widthOk s.ports.width.toNat
  · refine .inr ⟨?_, rfl⟩
    rw [← Bool.not_eq_true, widthOk_iff] at h
    omega
  · exact .inl ⟨((widthOk_iff _).mp h).1, ((widthOk_iff _).mp h).2, rfl⟩

/-- The errors of ERP1.EXT (42_erp1.md R170). -/
theorem extractErp1_code (p : Esp3Packet) (e : ErrorCode) (h : extractErp1 p = .err e) :
    e = .wrongPacketType ∨ e = .payloadTooShort := by
  unfold extractErp1 at h
  split at h
  · cases h; simp
  · split at h <;> cases h
    simp

theorem extractField_code (p : List Byte) (off w : Nat) (e : ErrorCode) (h : extractField p off w = .err e) :
    e = .payloadBitRangeOutOfBounds := by
  unfold extractField at h
  split at h <;> cases h
  rfl

theorem decodeFrame_code (f : List Byte) (e : ErrorCode) (h : decodeFrame f = .err e) :
    e = .truncatedFrame ∨ e = .syncByteMismatch ∨ e = .headerCrcMismatch ∨ e = .dataCrcMismatch := by
  unfold decodeFrame at h
  repeat' split at h
  all_goals first | (cases h; simp) | cases h

/-- Every meaning answers a next state, and none touches the inbox, the ports or the queue depth. -/
theorem exec_next (i : Instr) (s : State) :
    ∃ t, exec i s = .next t ∧ t.inbox = s.inbox ∧ t.ports = s.ports ∧ t.rqDepth = s.rqDepth := by
  cases i with
  | frmPush b =>
    obtain ⟨-, h⟩ | ⟨-, -, h⟩ := execFrmPush_cases b s <;> exact ⟨_, h, rfl, rfl, rfl⟩
  | frmPop => obtain ⟨-, h⟩ | ⟨_, _, -, h⟩ := execFrmPop_cases s <;> exact ⟨_, h, rfl, rfl, rfl⟩
  | erp1Ext => obtain ⟨-, h⟩ | ⟨-, h⟩ := execErp1Ext_cases s <;> exact ⟨_, h, rfl, rfl, rfl⟩
  | fldExt => obtain ⟨-, -, h⟩ | ⟨-, h⟩ := execFldExt_cases s <;> exact ⟨_, h, rfl, rfl, rfl⟩
  | _ => exact ⟨_, rfl, rfl, rfl, rfl⟩

/-- Every step goes on, takes one input, keeps the queue depth, and adds at most one byte to the buffer. -/
theorem step_next (s : State) : ∃ t, step s = .next t ∧ t.inbox = s.inbox.tail ∧ t.rqDepth = s.rqDepth
    ∧ t.fbuf.length ≤ s.fbuf.length + 1 := by
  obtain ⟨-, h⟩ | ⟨-, h⟩ | ⟨i, p, -, -, h⟩ | ⟨w, p, r, e, hi, -, h⟩ := step_shape s
  · refine ⟨_, h, by simp, by simp, ?_⟩
    obtain ⟨-, h⟩ | ⟨b, q, hd, h⟩ := engineTurn_cases { s with inbox := s.inbox.tail }
    · simp [h]
    · have := drainStep_shrinks hd
      rw [h]
      simp at this ⊢
      omega
  · exact ⟨_, h, by simp, by simp, by simp⟩
  · cases i with
    | frmPush b =>
      obtain ⟨-, h'⟩ | ⟨-, -, h'⟩ := execFrmPush_cases b { s with inbox := s.inbox.tail, ports := p } <;>
        exact ⟨_, h.trans h', rfl, rfl, by simp⟩
    | frmPop =>
      obtain ⟨-, h'⟩ | ⟨_, _, -, h'⟩ := execFrmPop_cases { s with inbox := s.inbox.tail, ports := p } <;>
        exact ⟨_, h.trans h', rfl, rfl, by simp⟩
    | erp1Ext =>
      obtain ⟨-, h'⟩ | ⟨-, h'⟩ := execErp1Ext_cases { s with inbox := s.inbox.tail, ports := p } <;>
        exact ⟨_, h.trans h', rfl, rfl, by simp⟩
    | fldExt =>
      obtain ⟨-, -, h'⟩ | ⟨-, h'⟩ := execFldExt_cases { s with inbox := s.inbox.tail, ports := p } <;>
        exact ⟨_, h.trans h', rfl, rfl, by simp⟩
    | _ => exact ⟨_, h, rfl, rfl, by simp [resetBlock]⟩
  · exact ⟨_, h, by simp [hi], rfl, by simp⟩

/-! ### Runs -/

theorem runSteps_succ {s t : State} (h : step s = .next t) (n : Nat) : runSteps (n + 1) s = runSteps n t := by
  simp [runSteps, h]

theorem runSteps_add {s t : State} {m : Nat} (h : runSteps m s = some t) (n : Nat) :
    runSteps (m + n) s = runSteps n t := by
  induction m generalizing s with
  | zero => cases h; simp
  | succ m ih =>
    cases hs : step s with
    | next u =>
      rw [runSteps_succ hs] at h
      rw [show m + 1 + n = m + n + 1 by omega, runSteps_succ hs, ih h]
    | fault r => cases r
    | refused r => simp [runSteps, hs] at h

theorem feedInputs_cons {x : Input} {xs : List Input} {s t : State} (h : step { s with inbox := x :: s.inbox } = .next t) :
    feedInputs (x :: xs) s = feedInputs xs t := by
  simp [feedInputs, h]

end Sys2Proof.Machine
end

