-- ==== Sys2Proof/Tests/Slice0.lean ====
section
/-! SUPPORT. The model's own tests: ill-formed terms, words written out from the encoding tables (30_encoding.md R60, R62,
R74), single steps whose expected results come from 95_test_vectors.md, and for each statement with hypotheses a state that
meets them. -/

namespace Sys2Proof.Tests

open Sys2Proof.Machine

/-! ### Well-formedness: the one check, which refuses both supported codes -/

theorem test_wellFormed_refuses_radioErp1_code : wellFormed (.ptypeUnsupported 0x01) = false := by decide
theorem test_wellFormed_refuses_response_code : wellFormed (.ptypeUnsupported 0x02) = false := by decide
theorem test_wellFormed_accepts_neighbours :
    wellFormed (.ptypeUnsupported 0x00) = true ∧ wellFormed (.ptypeUnsupported 0x03) = true := by decide

/-! ### Decoding: `OP` in bits 15 to 8, `IMM8` in bits 7 to 0 -/

theorem test_decode_crcInit : decode (.cmd16 0b00000001_00000000) = .ok .crcInit := by rfl
theorem test_decode_crcUpd : decode (.cmd16 0b00000010_01111010) = .ok (.crcUpd 0x7A) := by rfl
theorem test_decode_crcRd : decode (.cmd16 0b00000011_00000000) = .ok .crcRd := by rfl
theorem test_decode_frmPush : decode (.cmd16 0b00010000_01010101) = .ok (.frmPush 0x55) := by rfl
theorem test_decode_frmPop : decode (.cmd16 0b00010001_00000000) = .ok .frmPop := by rfl
theorem test_decode_frmStat : decode (.cmd16 0b00010010_00000000) = .ok .frmStat := by rfl
theorem test_decode_frmDec : decode (.cmd16 0b00010011_00000000) = .ok .frmDec := by rfl
theorem test_decode_erp1Ext : decode (.cmd16 0b00100000_00000000) = .ok .erp1Ext := by rfl
theorem test_decode_fldExt : decode (.cmd16 0b00100001_00000000) = .ok .fldExt := by rfl
theorem test_decode_reset : decode (.cmd16 0b11111111_00000000) = .ok .reset := by rfl
theorem test_decode_ptypeRadioErp1 : decode (.ptype8 0b00000001) = .ok .ptypeRadioErp1 := by rfl
theorem test_decode_ptypeResponse : decode (.ptype8 0b00000010) = .ok .ptypeResponse := by rfl
theorem test_decode_ptypeUnsupported : decode (.ptype8 0b00000000) = .ok (.ptypeUnsupported 0x00) := by rfl

/-- Vectors R-4 to R-7: unassigned `OP` and non-zero `IMM8`. -/
theorem test_decode_reserved :
    decode (.cmd16 0x0000) = .error (.unassignedOp 0x00) ∧ decode (.cmd16 0x1400) = .error (.unassignedOp 0x14)
      ∧ decode (.cmd16 0xFE00) = .error (.unassignedOp 0xFE) ∧ decode (.cmd16 0x1280) = .error (.nonZeroImm 0x12 0x80)
      ∧ decode (.cmd16 0xFF01) = .error (.nonZeroImm 0xFF 0x01) := by
  refine ⟨?_, ?_, ?_, ?_, ?_⟩ <;> rfl

/-- The host's numbering: one 16-bit word, or one byte, and no other length. -/
theorem test_decodeTableWord :
    decodeTableWord 16 0x027A = some (.crcUpd 0x7A) ∧ decodeTableWord 8 0x02 = some .ptypeResponse
      ∧ decodeTableWord 16 0x0401 = none ∧ decodeTableWord 24 0x0100 = none := by decide

/-! ### Single steps -/

/-- The state after one command with these port values, from a state with nothing else scheduled. -/
def after (s : State) (w : CmdWord) (ports : Ports) : Option State := runSteps 1 { s with inbox := [.command w ports] }

/-- What that command showed. -/
def shows (s : State) (w : CmdWord) (ports : Ports) : Option Output := (after s w ports).map State.out

def noPorts : Ports := Ports.undriven

/-- Port FLD.EXT operands. -/
def fieldPorts (p : List Byte) (off : BitVec 32) (w : BitVec 6) : Ports :=
  { noPorts with payload := p, offset := off, width := w }

/-- The named frame `RPS` and its packet. -/
def rps : Esp3Packet :=
  { ptype := .radioErp1, data := [0xF6, 0x50, 0x00, 0x29, 0x89, 0x79, 0x30],
    opt := [0x01, 0xFF, 0xFF, 0xFF, 0xFF, 0x2D, 0x00] }

def rpsFrame : List Byte :=
  [0x55, 0x00, 0x07, 0x07, 0x01, 0x7A, 0xF6, 0x50, 0x00, 0x29, 0x89, 0x79, 0x30, 0x01, 0xFF, 0xFF, 0xFF, 0xFF, 0x2D, 0x00,
   0x48]

/-- The packet of the named frame `RESP`. -/
def resp : Esp3Packet := { ptype := .response, data := [0x00], opt := [] }

/-- The packet of the named frame `E0A`. -/
def e0a : Esp3Packet := { ptype := .unsupported 0x0A, data := [], opt := [] }

theorem test_named_frames :
    ser rps = rpsFrame ∧ ser resp = [0x55, 0x00, 0x01, 0x00, 0x02, 0x65, 0x00, 0x00]
      ∧ ser e0a = [0x55, 0x00, 0x00, 0x00, 0x0A, 0x36, 0x00] := by decide +kernel

/-- Vector A-1. -/
theorem test_crcInit : (after { State.reset with crc := 0x3C } 0x0100 noPorts).map State.crc = some 0x00 := by
  decide +kernel

/-- Vector A-5. -/
theorem test_crcUpd : (after { State.reset with crc := 0x15 } 0x0207 noPorts).map State.crc = some 0x7E := by
  decide +kernel

/-- Vector A-7: answered, and not cleared. -/
theorem test_crcRd :
    (after { State.reset with crc := 0x7A } 0x0300 noPorts).map (fun t => (t.crc, t.out))
      = some (0x7A, .answered (.crc 0x7A)) := by decide +kernel

/-- The sixth row of the mode sequence: the header byte that completes a valid header. -/
theorem test_frmPush :
    (after { State.reset with fbuf := rpsFrame.take 5 } 0x107A noPorts).map (fun t => (t.fbuf, t.out))
      = some (rpsFrame.take 6, .answered .done) := by decide +kernel

/-- A push while the engine has work (41_framer.md R150). -/
theorem test_frmPush_busy :
    (after { State.reset with fbuf := rpsFrame } 0x1055 noPorts).map (fun t => (t.fbuf, t.out))
      = some (rpsFrame, .answered .busy) := by decide +kernel

/-- Vector Q-2. -/
theorem test_frmPop :
    (after { State.reset with rq := [.ok resp, .ok rps] } 0x1100 noPorts).map (fun t => (t.rq, t.out))
      = some ([.ok rps], .answered (.packet resp)) := by decide +kernel

/-- Vector Q-1. -/
theorem test_frmPop_empty : shows State.reset 0x1100 noPorts = some (.answered .empty) := by decide +kernel

/-- Vector S10. -/
theorem test_frmStat_body :
    shows { State.reset with fbuf := rpsFrame.take 12 } 0x1200 noPorts
      = some (.answered (.status 0x000000090000_0C02)) := by decide +kernel

/-- The last row of the mode sequence, before the drain step, with a full queue of depth 1. -/
theorem test_frmStat_busy :
    shows { State.launch (.bounded 1) with fbuf := rpsFrame, rq := [.err .dataCrcMismatch] } 0x1200 noPorts
      = some (.answered (.status 0x150F)) := by decide +kernel

/-- Vector F-6: a bad header CRC is reported before the missing body. -/
theorem test_frmDec_header :
    shows State.reset 0x1300 { noPorts with frame := [0x55, 0x00, 0x0A, 0x00, 0x01, 0x81] }
      = some (.answered (.err .headerCrcMismatch)) := by decide +kernel

/-- Vector F-15, with a byte after the frame as in F-10. -/
theorem test_frmDec_ok :
    shows State.reset 0x1300 { noPorts with frame := rpsFrame ++ [0x99] } = some (.answered (.packet rps)) := by
  decide +kernel

/-- Vector E-16. -/
theorem test_erp1Ext :
    shows State.reset 0x2000 { noPorts with pkt := rps } = some (.answered (.telegram
      { rorg := 0xF6, payload := [0x50], senderId := 0x00298979, status := 0x30, subTelegramCount := some 0x01,
        destinationId := some 0xFFFFFFFF, rssiRaw := some 0x2D, rssiDbm := some (Config.rssiInterp 0x2D),
        securityLevel := some 0x00 })) := by rfl

/-- The packet of vector E-17. -/
def shortTrailer : Esp3Packet :=
  { ptype := .radioErp1, data := [0xD5, 0x09, 0xFF, 0xFF, 0xFF, 0xFF, 0x00], opt := [0x03, 0x12, 0x34, 0x56, 0x78] }

/-- Vector E-17: big-endian, and no fabricated trailer. -/
theorem test_erp1Ext_partial :
    shows State.reset 0x2000 { noPorts with pkt := shortTrailer }
      = some (.answered (.telegram
        { rorg := 0xD5, payload := [0x09], senderId := 0xFFFFFFFF, status := 0x00, subTelegramCount := some 0x03,
          destinationId := some 0x12345678, rssiRaw := none, rssiDbm := none, securityLevel := none })) := by rfl

/-- Vector X-14: a field across a byte boundary. -/
theorem test_fldExt :
    shows State.reset 0x2100 (fieldPorts [0x3F, 0x00, 0x0A, 0x08] 6 10) = some (.answered (.field 0x300)) := by
  decide +kernel

/-- Vector X-20: the sum does not wrap. -/
theorem test_fldExt_no_wrap :
    shows State.reset 0x2100 (fieldPorts [0x3F, 0x00, 0x0A, 0x08] 0xFFFFFFFF 1)
      = some (.answered (.err .payloadBitRangeOutOfBounds)) := by decide +kernel

/-- Vectors R-1 and R-8. -/
theorem test_reset :
    (after { State.reset with crc := 0xAC, fbuf := rpsFrame.take 12, rq := [.ok resp], refused := true } 0xFF00
        noPorts).map (fun t => (t.crc, t.fbuf, t.rq, t.refused))
      = some (0x00, [], [], true) := by decide +kernel

/-- 30_encoding.md R74. -/
theorem test_ptypeRadioErp1 :
    (runSteps 1 { State.reset with inbox := [.ptype 0x01] }).map State.out = some (.classified .radioErp1) := by
  decide +kernel
theorem test_ptypeResponse :
    (runSteps 1 { State.reset with inbox := [.ptype 0x02] }).map State.out = some (.classified .response) := by
  decide +kernel
theorem test_ptypeUnsupported :
    (runSteps 1 { State.reset with inbox := [.ptype 0x05] }).map State.out
      = some (.classified (.unsupported 0x05)) := by decide +kernel

/-- Case C of 41_framer.md R142 on the head of vector S4: one byte goes, one error is emitted. -/
theorem test_engine_badData :
    (runSteps 1 { State.reset with fbuf := [0x55, 0x00, 0x01, 0x00, 0x05, 0x70, 0x09, 0x38] }).map
        (fun t => (t.fbuf, t.rq))
      = some ([0x00, 0x01, 0x00, 0x05, 0x70, 0x09, 0x38], [.err .dataCrcMismatch]) := by decide +kernel

/-- Program P5: with a full queue of depth 1 the engine holds. -/
theorem test_engine_holds :
    (runSteps 1 { State.launch (.bounded 1) with fbuf := rpsFrame, rq := [.ok resp] }).map (fun t => (t.fbuf, t.rq))
      = some (rpsFrame, [.ok resp]) := by decide +kernel

/-- A word placed by `withFetchWord` runs at once (log entry 11). -/
theorem test_withFetchWord : step (State.reset.withFetchWord 16 0x0201) = exec (.crcUpd 0x01) State.reset := by rfl

/-! ### Witnesses: for each statement with hypotheses, values that meet them -/

/-- The state `s` about to see these inputs. -/
def State.seeing (s : State) (xs : List Input) : State := { s with inbox := xs }

/-- `StepRunsTheDecodedInstruction`, its three clauses. -/
theorem witness_step_runs :
    (State.seeing State.reset [.command 0x0201 noPorts]).inbox = .command 0x0201 noPorts :: []
      ∧ decode (.cmd16 0x0201) = .ok (.crcUpd 0x01)
      ∧ (State.seeing State.reset [.ptype 0xFF]).inbox = .ptype 0xFF :: []
      ∧ decode (.ptype8 0xFF) = .ok (.ptypeUnsupported 0xFF)
      ∧ decodeTableWord 16 0xFF00 = some .reset := by refine ⟨?_, ?_, ?_, ?_, ?_⟩ <;> rfl

/-- `ReservedWordsAreRefused`, at both ends of the unassigned codes and with a non-zero `IMM8`. -/
theorem witness_reserved (i : Instr) :
    decode (.cmd16 0x0000) ≠ .ok i ∧ decode (.cmd16 0xFEFF) ≠ .ok i ∧ decode (.cmd16 0x0101) ≠ .ok i := by
  refine ⟨?_, ?_, ?_⟩ <;> exact nofun

/-- `StateElementsHaveOnlyTheirWriters`: a step that changes each element. -/
theorem witness_writers :
    ((runSteps 1 (State.seeing State.reset [.command 0x0201 noPorts])).map State.crc ≠ some State.reset.crc)
      ∧ ((runSteps 1 (State.seeing State.reset [.command 0x1055 noPorts])).map State.fbuf ≠ some State.reset.fbuf)
      ∧ ((runSteps 1 { State.reset with fbuf := rpsFrame }).map State.rq ≠ some State.reset.rq)
      ∧ ((runSteps 1 (State.seeing State.reset [.command 0x0000 noPorts])).map State.refused
          ≠ some State.reset.refused) := by decide +kernel

/-- `RefusalMarkIsSticky`, `EvidenceMeansNothingWasRefused` and `RefusalsAreTheListedOnes`: a step that refuses, for each
reason, and one that does not. -/
theorem witness_refusals :
    shows State.reset 0x0000 noPorts = some (.refusal .reservedCommand)
      ∧ shows State.reset 0x2000 { noPorts with pkt := { rps with ptype := .unsupported 0x01 } }
          = some (.refusal .operandInvariant)
      ∧ shows State.reset 0x2100 (fieldPorts [] 0 0) = some (.refusal .fieldWidth)
      ∧ shows State.reset 0x2100 (fieldPorts [] 0 33) = some (.refusal .fieldWidth)
      ∧ shows State.reset 0x0100 noPorts = some (.answered .done) := by decide +kernel

/-- The operand invariant at its boundaries (`RefusalsAreTheListedOnes`, `Erp1ExtAnswersAsStated`): the longest legal
lengths, and one more. -/
theorem witness_pktOk_boundary :
    pktOk { ptype := .response, data := List.replicate 65535 0, opt := List.replicate 255 0 } = true
      ∧ pktOk { ptype := .response, data := List.replicate 65536 0, opt := [] } = false
      ∧ pktOk { ptype := .response, data := [], opt := List.replicate 256 0 } = false
      ∧ pktOk { ptype := .unsupported 0x02, data := [], opt := [] } = false := by
  refine ⟨?_, ?_, ?_, rfl⟩ <;>
    simp only [pktOk, ptypeOk, Config.maxDataLen, Config.maxOptLen, List.length_replicate, List.length_nil] <;> rfl

/-- `ErrorsComeOnlyFromTheirCommands`: from a state that meets the invariant, each error answered. -/
theorem witness_errors :
    StateOk State.reset ∧ StateOk { State.reset with rq := [.err .headerCrcMismatch] }
      ∧ shows State.reset 0x1300 { noPorts with frame := [0x54] } = some (.answered (.err .syncByteMismatch))
      ∧ shows State.reset 0x1300 { noPorts with frame := [0x55] } = some (.answered (.err .truncatedFrame))
      ∧ shows { State.reset with rq := [.err .headerCrcMismatch] } 0x1100 noPorts
          = some (.answered (.err .headerCrcMismatch))
      ∧ shows State.reset 0x2000 { noPorts with pkt := resp } = some (.answered (.err .wrongPacketType))
      ∧ shows State.reset 0x2000 noPorts = some (.answered (.err .payloadTooShort))
      ∧ shows State.reset 0x2100 (fieldPorts [] 0 1) = some (.answered (.err .payloadBitRangeOutOfBounds)) := by
  decide +kernel

/-- `ReadOnlyCommandsChangeNothing`: legal operands, with the width at both ends. -/
theorem witness_read_only :
    pktOk noPorts.pkt = true ∧ 1 ≤ (fieldPorts [] 0 1).width.toNat ∧ (fieldPorts [] 0 32).width.toNat ≤ 32 := by decide

/-- `ResetStateIsAsStated` and `InvariantHoldsAtLaunch`: legal depths, the least bounded one among them. -/
theorem witness_depths : queueDepthOk .unbounded = true ∧ queueDepthOk (.bounded 1) = true := by decide

/-- `ResetClearsTheBlock`: a next state. -/
theorem witness_reset : ∃ t, exec .reset { State.reset with crc := 0xAC } = .next t := ⟨_, rfl⟩

/-- `PowerOnMakesResetsAssignment`. -/
theorem witness_powerOn : (State.seeing State.reset [.powerOn]).inbox = .powerOn :: [] := rfl

/-- `InvariantKeptByEveryStep`: an occupied state that meets the invariant, and its next state. -/
theorem witness_invariant :
    StateOk { State.launch (.bounded 1) with fbuf := rpsFrame, rq := [.ok rps] }
      ∧ ∃ t, step { State.launch (.bounded 1) with fbuf := rpsFrame, rq := [.ok rps] } = .next t :=
  ⟨by decide +kernel, _, rfl⟩

/-- `ClassifyKeepsTheCode` and `PacketTypeRowsShowTheClass`: the codes beside the two supported ones. -/
theorem witness_unsupported : (0x00 : Byte) ≠ 0x01 ∧ (0x00 : Byte) ≠ 0x02 ∧ (0x03 : Byte) ≠ 0x02 := by decide

/-- `CrcSeesEveryChangedByte`: two bytes one bit apart. -/
theorem witness_changed_byte : (0x00 : Byte) ≠ 0x80 := by decide

/-- `AccumulatorAnswersCrcOfItsBytes`: an interleaving with a push, a turn of the engine and a reserved word in it. -/
theorem witness_accumulator :
    let xs := [Input.command 0x0207 noPorts, .command 0x1055 noPorts, .engine, .command 0x0000 noPorts, .ptype 0x01,
      .command 0x0201 noPorts]
    (∀ x ∈ xs, restartsCrc x = false)
      ∧ (State.seeing { State.reset with crc := 0xAC } (.command 0x0100 noPorts :: xs ++ [.command 0x0300 noPorts])).inbox
          = .command 0x0100 noPorts :: xs ++ .command 0x0300 noPorts :: []
      ∧ xs.flatMap absorbedByte = [0x07, 0x01] := by decide +kernel

/-- `FrmDecAnswersInOrder` and `EngineTurnTakesTheRulesCase`: bytes that meet each clause: garbage, five and six bytes of a
frame, a bad header, a body one byte short, a complete frame with each data CRC, and an empty body. -/
theorem witness_frame_clauses :
    (0x54 : Byte) ≠ 0x55 ∧ [0x00, 0x01, 0x00, 0x05].length < 5 ∧ crc8 [0x00, 0x01, 0x00, 0x05] = 0x70
      ∧ crc8 [0x00, 0x01, 0x00, 0x05] ≠ 0x71
      ∧ [(0x08 : Byte)].length < (0x00 : Byte).toNat * 256 + (0x01 : Byte).toNat + (0x00 : Byte).toNat + 1
      ∧ [(0x08 : Byte), 0x38] = [0x08] ++ [] ++ 0x38 :: []
      ∧ [(0x08 : Byte)].length = (0x00 : Byte).toNat * 256 + (0x01 : Byte).toNat
      ∧ ([] : List Byte).length = (0x00 : Byte).toNat ∧ crc8 ([0x08] ++ []) = 0x38 ∧ crc8 ([0x08] ++ []) ≠ 0x39
      ∧ crc8 [0x00, 0x00, 0x00, 0x0A] = 0x36 ∧ crc8 ([] ++ []) = 0x00 := by decide +kernel

/-- `EngineTurnTakesTheRulesCase` and `NothingIsDroppedSilently`: the turn as an input and as the default, with a queue
that has room and one that has none; a turn of each kind that changes the buffer. -/
theorem witness_engine :
    engineNext State.reset = true ∧ engineNext (State.seeing State.reset [.engine]) = true
      ∧ hasRoom (.bounded 1) [] = true ∧ hasRoom (.bounded 1) [.ok rps] = false
      ∧ (runSteps 1 { State.reset with fbuf := [0x00, 0x55] }).map State.fbuf = some [0x55]
      ∧ (runSteps 1 { State.reset with fbuf := [0x55, 0x55, 0x00, 0x01, 0x00, 0x02] }).map State.rq
          = some [.err .headerCrcMismatch]
      ∧ (runSteps 1 { State.reset with fbuf := ser e0a }).map State.rq = some [.ok e0a] := by decide +kernel

/-- `SerializedPacketComesBack`, `NoValidPacketIsLost` and `EarlyPopMissesAPendingResult`: legal packets, with and without
a body. -/
theorem witness_packets : pktOk rps = true ∧ pktOk resp = true ∧ pktOk e0a = true := by decide

/-- `DrainingEndsWithinBufferLength` and `EveryScheduleEndsIdle`: a step that is enabled, and the state the runs start
from. -/
theorem witness_draining :
    drainStep .unbounded [0x00] [] = some ([], []) ∧ ({ State.reset with fbuf := rpsFrame }).inbox = []
      ∧ State.reset.rqDepth = .unbounded ∧ (State.launch (.bounded 1)).rqDepth = .bounded 1
      ∧ (State.launch (.bounded 1)).rq.length + [(0x00 : Byte)].length ≤ 1 := by decide +kernel

/-- `PoppingHostReachesIdle`: a full queue of depth 1 before a pending packet. -/
theorem witness_popping :
    StateOk (State.seeing { State.launch (.bounded 1) with fbuf := ser e0a, rq := [.ok rps] }
        (List.replicate 7 [Input.command 0x1100 noPorts, Input.engine]).flatten)
      ∧ (ser e0a).length = 7 := by decide +kernel

/-- `EngineAgreesWithOneShotDecode`: a bad header and a whole frame at the head. -/
theorem witness_agreement :
    decodeFrame [0x55, 0x00, 0x00, 0x00, 0x0A, 0x37] ≠ .err .truncatedFrame ∧ byteAt (ser e0a) 0 = 0x55
      ∧ ser e0a ≠ [] ∧ decodeFrame (ser e0a) ≠ .err .truncatedFrame := by decide +kernel

/-- Pushes of these bytes, each followed by a turn of the engine. -/
def pushes (bs : List Byte) : List Input := bs.flatMap fun b => [.command (cmdWord 0x10 b) noPorts, .engine]

/-- `ResultsDependOnlyOnTheAcceptedBytes`, `ResultsAppearInStreamOrder` and `SerializedPacketComesBack`: a stream that starts
empty, idle after the packet's seven pushes. -/
theorem witness_stream :
    StreamStart (State.seeing State.reset (pushes (ser e0a)))
      ∧ Idle (traceRun 14 (State.seeing State.reset (pushes (ser e0a)))).now.fbuf
      ∧ (traceRun 14 (State.seeing State.reset (pushes (ser e0a)))).pushed = ser e0a := by decide +kernel

/-- `PushThenDrainIsPushAtomic`: the byte that completes a frame. -/
theorem witness_push :
    let s := State.seeing { State.reset with fbuf := (ser e0a).take 6 } [.command (cmdWord 0x10 0x00) noPorts]
    Idle s.fbuf ∧ s.fbuf.length < 65797 ∧ s.rqDepth = .unbounded ∧ s.inbox = [.command (cmdWord 0x10 0x00) noPorts]
      ∧ pushAtomic s.fbuf s.rq 0x00 = ([], [.ok e0a]) := by decide +kernel

/-- A frame with no `0x55` but its sync byte, for `ResynchronisesAfterACorruptedFrame`: `CC08` with its data byte set to
`0x03`. -/
def cc08 : Esp3Packet := { ptype := .unsupported 0x05, data := [0x08], opt := [] }

/-- The stream of `ResynchronisesAfterACorruptedFrame`: the corrupted frame's last byte completes it, so eight turns of the
engine follow it. -/
def corruptedStream : List Input :=
  pushes [0x55, 0x00, 0x01, 0x00, 0x05, 0x70, 0x03, 0x38] ++ List.replicate 7 .engine ++ pushes (ser e0a)

theorem witness_resynchronise :
    pktOk cc08 = true ∧ 0 < cc08.data.length
      ∧ crc8 (cc08.data.set 0 0x03 ++ cc08.opt) ≠ crc8 (cc08.data ++ cc08.opt)
      ∧ (∀ b ∈ ((ser cc08).set 6 0x03).tail, b ≠ 0x55)
      ∧ StreamStart (State.seeing State.reset corruptedStream)
      ∧ (traceRun 37 (State.seeing State.reset corruptedStream)).pushed = (ser cc08).set 6 0x03 ++ ser e0a
      ∧ Idle (traceRun 37 (State.seeing State.reset corruptedStream)).now.fbuf := by decide +kernel

/-- `NoValidPacketIsLost`: garbage and false sync bytes before the packet, one of them with a valid header whose frame ends
inside the stream and fails its data CRC (vector S13). -/
theorem witness_no_loss :
    ∀ pre ∈ [[], [0x00], [0x55, 0x55], [0x55, 0x00, 0x05, 0x00, 0x0A, 0xF6]], ∀ k, k < pre.length →
      byteAt (pre.drop k ++ ser resp ++ []) 0 = 0x55 → hdrOK (pre.drop k ++ ser resp ++ []) = true →
      pre.length - k < frameLen (pre.drop k ++ ser resp ++ []) →
      frameLen (pre.drop k ++ ser resp ++ []) ≤ (pre.drop k ++ ser resp ++ []).length
        ∧ bodyCrcOK (pre.drop k ++ ser resp ++ []) = false := by decide +kernel

/-- `FrmPushAppendsOrIsBusy`: a buffer with work, and one of the largest length. -/
theorem witness_push_busy : needsWork [0x00] = true ∧ 65797 ≤ (List.replicate 65797 (0x00 : Byte)).length := by
  constructor
  · rfl
  · simp only [List.length_replicate, Nat.le_refl]

/-- `FrmPushAppendsOrIsBusy` and `IdleFramerAcceptsAByte` at the boundary: an idle buffer one byte below capacity, the
longest frame without its last byte. -/
theorem witness_push_longest : ∃ b, Idle b ∧ b.length = 65796 := by
  refine ⟨0x55 :: 0xFF :: 0xFF :: 0xFF :: 0x01 :: crc8 [0xFF, 0xFF, 0xFF, 0x01] :: List.replicate 65790 0, ?_,
    by simp only [List.length_cons, List.length_replicate]⟩
  rw [Idle, idle_iff]
  exact drainCase_incomplete rfl (by rw [List.length_replicate]; decide)

/-- `FrmPopDeliversTheHead`: the three queues. -/
theorem witness_queues :
    State.reset.rq = [] ∧ ({ State.reset with rq := [.ok rps] }).rq = .ok rps :: []
      ∧ ({ State.reset with rq := [.err .dataCrcMismatch] }).rq = .err .dataCrcMismatch :: [] := by
  refine ⟨?_, ?_, ?_⟩ <;> rfl

/-- `FrmStatShowsTheFields`: a buffer of each mode, HEADER at its longest and BODY at its shortest. -/
theorem witness_modes :
    needsWork rpsFrame = true ∧ Idle [] ∧ Idle (rpsFrame.take 5) ∧ (rpsFrame.take 5).length < 6 ∧ Idle (rpsFrame.take 6)
      ∧ 6 ≤ (rpsFrame.take 6).length := by decide +kernel

/-- `EarlyPopMissesAPendingResult`: the buffer before the last byte. -/
theorem witness_early_pop :
    let s := State.seeing { State.reset with fbuf := (ser e0a).take 6 }
      [.command (cmdWord 0x10 0x00) noPorts, .command 0x1100 noPorts, .engine, .command 0x1100 noPorts]
    pktOk e0a = true ∧ s.fbuf ++ [0x00] = ser e0a ∧ s.rq = [] ∧ queueDepthOk s.rqDepth = true
      ∧ s.inbox = [.command (cmdWord 0x10 0x00) noPorts, .command 0x1100 noPorts, .engine, .command 0x1100 noPorts] := by
  decide +kernel

/-- `FeedThenWaitEmitsEverything`: the reset state. -/
theorem witness_feed : Idle State.reset.fbuf ∧ State.reset.rqDepth = .unbounded := by decide +kernel

/-- `Erp1ExtAnswersAsStated`: a packet of the statement's shape (that of vector E-16). -/
theorem witness_telegram_packet :
    ({ State.reset with ports := { noPorts with pkt := rps } }).ports.pkt
      = { ptype := .radioErp1, data := 0xF6 :: [0x50] ++ [0x00, 0x29, 0x89, 0x79, 0x30], opt := rps.opt } := rfl

/-- `Erp1ExtAnswersAsStated`: its bounds and the clauses on the optional data at their boundaries. -/
theorem witness_telegram :
    ([] : List Byte).length ≤ 65529 ∧ (List.replicate 65529 (0x00 : Byte)).length ≤ 65529
      ∧ (List.replicate 255 (0x00 : Byte)).length ≤ 255 ∧ [(0x01 : Byte), 0xFF, 0xFF, 0xFF].length < 5
      ∧ [(0x01 : Byte), 0xFF, 0xFF, 0xFF, 0xFE] = 0x01 :: 0xFF :: 0xFF :: 0xFF :: 0xFE :: [] := by
  refine ⟨by decide, ?_, ?_, by decide, rfl⟩ <;> simp only [List.length_replicate, Nat.le_refl]

/-- `Erp1ExtAnswersAsStated`: a short packet of another type, and a RADIO_ERP1 packet one byte short. -/
theorem witness_erp1_errors :
    let p : Esp3Packet := { ptype := .response, data := [0x01], opt := [] }
    let q : Esp3Packet := { ptype := .radioErp1, data := [0xD2, 0x11, 0x22, 0x33, 0x44], opt := [] }
    pktOk p = true ∧ p.ptype ≠ .radioErp1 ∧ pktOk q = true ∧ q.ptype = .radioErp1 ∧ q.data.length < 6 := by decide

/-- `FldExtAnswersAsStated`: widths 1 and 32 ending on the last bit, and one past it. -/
theorem witness_fields :
    let fits (q : Ports) : Prop :=
      1 ≤ q.width.toNat ∧ q.width.toNat ≤ 32 ∧ q.offset.toNat + q.width.toNat ≤ 8 * q.payload.length
    let past := fieldPorts [0x3F, 0x00] 16 1
    fits (fieldPorts [0x3F, 0x00] 15 1) ∧ fits (fieldPorts [0x3F, 0x00, 0x0A, 0x08] 0 32)
      ∧ 1 ≤ past.width.toNat ∧ past.width.toNat ≤ 32 ∧ 8 * past.payload.length < past.offset.toNat + past.width.toNat
      ∧ (fieldPorts [] 0 0).width.toNat = 0 ∧ 32 < (fieldPorts [] 0 33).width.toNat := by
  simp only
  decide

end Sys2Proof.Tests
end

section
/-! PROOFS. The statements on 10_state.md: the idle kinds (R23) and the state at launch and after RESET (R31). -/

namespace Sys2Proof.Machine

/-! ### The idle kinds (10_state.md R23) -/

theorem idle_nil : Idle [] := (idle_iff []).mpr drainCase_nil

/-- Settles O33: no case of R142 applies to an idle buffer (`drainCase_none`), and none applies to the three kinds. -/
theorem idleBuffersAreTheThreeKinds : Obligations.IdleBuffersAreTheThreeKinds := by
  intro b
  constructor
  · intro h
    obtain hnil | ⟨hne, hsync, hshort⟩ | ⟨hsync, h6, hhdr, hlen⟩ := drainCase_none ((idle_iff b).mp h)
    · exact .inl hnil
    · obtain ⟨x, tl, rfl⟩ := List.exists_cons_of_ne_nil hne
      rw [byteAt_cons_zero] at hsync
      exact .inr (.inl ⟨tl, by rw [hsync], hshort⟩)
    · obtain ⟨x, d1, d0, ol, pt, hc, tl, rfl⟩ := exists_header h6
      rw [byteAt_cons_zero] at hsync
      rw [hdrOK_header, beq_iff_eq] at hhdr
      rw [frameLen_header] at hlen
      exact .inr (.inr ⟨d1, d0, ol, pt, hc, tl, by rw [hsync], hhdr, hlen⟩)
  · rintro (rfl | ⟨tl, rfl, hshort⟩ | ⟨d1, d0, ol, pt, hc, tl, rfl, hhdr, hlen⟩)
    · exact idle_nil
    · exact (idle_iff _).mpr (drainCase_short (Nat.lt_of_succ_lt_succ hshort))
    · simp only [List.length_cons] at hlen
      exact (idle_iff _).mpr (drainCase_incomplete hhdr (by omega))

/-! ### The cleared state (10_state.md R25, R29, R31) -/

@[simp] theorem frameMode_nil : frameMode [] = .seek := by simp [frameMode, idle_nil]

@[simp] theorem frameNeed_nil : frameNeed [] = 0 := by simp [frameNeed]

@[simp] theorem rqNonEmpty_nil : rqNonEmpty [] = false := rfl

/-- An empty queue is full only at depth 0, which R7 excludes. -/
theorem rqFull_nil {d : QueueDepth} (h : queueDepthOk d = true) : rqFull d [] = false := by
  cases d with
  | unbounded => rfl
  | bounded n =>
    have hpos : 0 < n := by simpa [queueDepthOk] using h
    simp [rqFull, hpos.ne]

theorem statusWord_of_empty {s : State} (hb : s.fbuf = []) (hq : s.rq = []) (hd : queueDepthOk s.rqDepth = true) :
    statusWord s = 0 := by
  rw [statusWord, hb, hq, rqFull_nil hd, rqNonEmpty_nil, frameMode_nil, frameNeed_nil]
  rfl

/-- The values R31 lists, for any state whose accumulator, buffer and queue are cleared. -/
theorem resetValues_of_cleared {s : State} (hc : s.crc = 0x00) (hb : s.fbuf = []) (hq : s.rq = []) :
    s.crc = 0x00 ∧ s.fbuf = [] ∧ s.rq = [] ∧ frameMode s.fbuf = .seek ∧ frameNeed s.fbuf = 0
      ∧ (queueDepthOk s.rqDepth = true → statusWord s = 0) :=
  ⟨hc, hb, hq, by rw [hb, frameMode_nil], by rw [hb, frameNeed_nil], statusWord_of_empty hb hq⟩

/-- RESET completes from every state (70_reset_and_hazards.md R230). -/
theorem exec_reset (s : State) : exec .reset s = .next { resetBlock s with out := .answered .done } := rfl

/-- Settles O14: launch and RESET both clear the accumulator, the buffer and the queue. -/
theorem resetStateIsAsStated : Obligations.ResetStateIsAsStated := by
  constructor
  · intro depth
    exact ⟨resetValues_of_cleared (launch_crc depth) (launch_fbuf depth) (launch_rq depth), launch_refused depth⟩
  · intro s t h
    rw [exec_reset] at h
    cases h
    exact ⟨resetValues_of_cleared (resetBlock_crc s) (resetBlock_fbuf s) (resetBlock_rq s), resetBlock_refused s⟩

end Sys2Proof.Machine
end

section
/-! PROOFS. The statements on 30_encoding.md: the reserved words (R66) and each row's match under its mask (R62). -/

namespace Sys2Proof

/-! ### The fields of a command word (30_encoding.md R60, R63) -/

theorem cmdOp_toNat (w : CmdWord) : (cmdOp w).toNat = (w >>> 8).toNat := by
  rw [cmdOp, BitVec.extractLsb'_toNat, BitVec.toNat_ushiftRight, Nat.shiftRight_eq_div_pow]
  omega

theorem cmdImm_toNat (w : CmdWord) : (cmdImm w).toNat = w.toNat % 256 := BitVec.extractLsb'_toNat ..

theorem cmdImm_eq_ofNat (w : CmdWord) : BitVec.ofNat 8 (w.toNat % 256) = cmdImm w := by
  rw [← cmdImm_toNat, BitVec.ofNat_toNat, BitVec.setWidth_eq]

@[simp] theorem cmdWord_inj {op op' imm imm' : Byte} :
    cmdWord op imm = cmdWord op' imm' ↔ op = op' ∧ imm = imm' := by
  constructor
  · intro h
    exact ⟨by simpa using congrArg cmdOp h, by simpa using congrArg cmdImm h⟩
  · rintro ⟨rfl, rfl⟩
    rfl

theorem cmdWord_cmdImm_eq_iff {op : Byte} {w : CmdWord} : cmdWord op (cmdImm w) = w ↔ op = cmdOp w := by
  conv_lhs => rhs; rw [← cmdWord_fields w]
  simp

/-! ### The decoder of command words (30_encoding.md R62, R64) -/

/-- A row that requires `IMM8 = 0x00` is encoded as its `OP` before a zero byte. -/
theorem encode_of_zeroImmCommand {op : Byte} {i : Instr} (h : zeroImmCommand op = some i) :
    encode i = .cmd16 (cmdWord op 0x00) := by
  unfold zeroImmCommand at h
  split_ifs at h <;> (cases h; subst op; rfl)

theorem encode_of_decodeCmd {w : CmdWord} {i : Instr} (h : decodeCmd w = .ok i) : encode i = .cmd16 w := by
  rw [← cmdWord_fields w]
  unfold decodeCmd at h
  split at h
  case isTrue hop =>
    cases h
    rw [hop, encode]
  split at h
  case isTrue hop =>
    cases h
    rw [hop, encode]
  split at h
  case h_2 => cases h
  case h_1 hrow =>
    split at h
    case isFalse => cases h
    case isTrue himm =>
      cases h
      rw [himm, encode_of_zeroImmCommand hrow]

/-- A command word decodes exactly to the instruction it encodes. -/
theorem decode_cmd16_eq_ok_iff {w : CmdWord} {i : Instr} : decode (.cmd16 w) = .ok i ↔ encode i = .cmd16 w := by
  constructor
  · exact encode_of_decodeCmd
  · intro h
    cases i with
    | crcUpd b =>
      cases h
      exact decode_crcUpd b
    | frmPush b =>
      cases h
      exact decode_frmPush b
    | ptypeRadioErp1 | ptypeResponse | ptypeUnsupported => cases h
    | _ =>
      cases h
      rfl

/-! ### Each row's match and mask (30_encoding.md R62) -/

/-- A row with a byte operand: the mask keeps `OP` alone. -/
theorem byteRow_match_iff (op : Byte) (row : Byte → Instr) (henc : ∀ b, encode (row b) = .cmd16 (cmdWord op b))
    (w : CmdWord) :
    w &&& 0xFF00 = cmdWord op 0 ↔ decode (.cmd16 w) = .ok (row (BitVec.ofNat 8 (w.toNat % 256))) := by
  have hmask : w &&& 0xFF00 = cmdWord (cmdOp w) 0 := by
    conv_lhs => rw [← cmdWord_fields w]
    exact Laws.EncodeMatchesRow.cmdWord_mask ..
  rw [decode_cmd16_eq_ok_iff, henc, cmdImm_eq_ofNat, CodeWord.cmd16.injEq, cmdWord_cmdImm_eq_iff, hmask, cmdWord_inj,
    and_iff_left rfl, eq_comm]

/-- A row without one: the mask keeps the whole word. -/
theorem fixedRow_match_iff (value : CmdWord) (i : Instr) (henc : encode i = .cmd16 value) (w : CmdWord) :
    w &&& 0xFFFF = value ↔ decode (.cmd16 w) = .ok i := by
  have hmask : w &&& 0xFFFF = w := BitVec.and_allOnes
  rw [decode_cmd16_eq_ok_iff, henc, CodeWord.cmd16.injEq, hmask, eq_comm]

/-- Settles O3: each row by the lemma for its mask. -/
theorem commandRowsMatchUnderMask : Obligations.CommandRowsMatchUnderMask := fun w =>
  ⟨byteRow_match_iff 0x02 .crcUpd (fun _ => rfl) w, byteRow_match_iff 0x10 .frmPush (fun _ => rfl) w,
    fixedRow_match_iff 0x0100 .crcInit rfl w, fixedRow_match_iff 0x0300 .crcRd rfl w,
    fixedRow_match_iff 0x1100 .frmPop rfl w, fixedRow_match_iff 0x1200 .frmStat rfl w,
    fixedRow_match_iff 0x1300 .frmDec rfl w, fixedRow_match_iff 0x2000 .erp1Ext rfl w,
    fixedRow_match_iff 0x2100 .fldExt rfl w, fixedRow_match_iff 0xFF00 .reset rfl w⟩

/-! ### The reserved words (30_encoding.md R66) -/

theorem decode_no_ok_iff_error (c : CodeWord) : (∀ i, decode c ≠ .ok i) ↔ ∃ e, decode c = .error e := by
  cases decode c <;> simp

theorem zeroImmCommand_eq_none_iff (op : Byte) :
    zeroImmCommand op = none ↔
      ¬ (op.toNat = 0x01 ∨ op.toNat = 0x03 ∨ op.toNat = 0x11 ∨ op.toNat = 0x12 ∨ op.toNat = 0x13 ∨ op.toNat = 0x20
        ∨ op.toNat = 0x21 ∨ op.toNat = 0xFF) := by
  simp [zeroImmCommand, ← BitVec.toNat_inj, ite_eq_iff]

/-- The two ways a command word is reserved, by its fields. -/
theorem decode_cmd16_error_iff (w : CmdWord) :
    (∃ e, decode (.cmd16 w) = .error e) ↔
      cmdOp w ≠ 0x02 ∧ cmdOp w ≠ 0x10 ∧ (zeroImmCommand (cmdOp w) = none ∨ cmdImm w ≠ 0x00) := by
  rw [decode, decodeCmd]
  by_cases hupd : cmdOp w = 0x02
  · simp [hupd]
  by_cases hpush : cmdOp w = 0x10
  · simp [hpush]
  rw [if_neg hupd, if_neg hpush, and_iff_right hupd, and_iff_right hpush]
  cases zeroImmCommand (cmdOp w) with
  | none => simp
  | some i => by_cases himm : cmdImm w = 0#8 <;> simp [himm]

/-- Settles O2: the reserved words by their two fields read as numbers, and the step on one by `step_reserved`. -/
theorem reservedWordsAreRefused : Obligations.ReservedWordsAreRefused := by
  constructor
  · intro w
    have hop := (cmdOp w).isLt
    rw [decode_no_ok_iff_error, decode_cmd16_error_iff, zeroImmCommand_eq_none_iff]
    simp only [ne_eq, ← cmdOp_toNat, ← cmdImm_toNat, ← BitVec.toNat_inj, BitVec.ofNat_eq_ofNat,
      BitVec.toNat_ofNat]
    omega
  · intro s w ports rest hin hres
    obtain ⟨e, he⟩ := (decode_no_ok_iff_error _).mp hres
    exact Machine.step_reserved hin he

end Sys2Proof
end

section
/-! PROOFS. The statements on 40_crc8.md: the laws of CRC8 (R103), the accumulator commands (R104 to R106), and the
accumulator under any interleaving (R107). -/

namespace Sys2Proof.Machine

/-! ### The laws of CRC8 (40_crc8.md R103) -/

theorem crc8_append (s t : List Byte) : crc8 (s ++ t) = crc8From (crc8 s) t := crc8From_append crcInit s t

theorem crc8_append_crc8 (s : List Byte) : crc8 (s ++ [crc8 s]) = 0x00 := by
  rw [crc8_append, crc8From_cons, crcAbsorb_self, crc8From_nil]

/-- `CRC_INIT` is zero, so a leading zero byte looks up `TABLE[0]`. -/
theorem crc8_zero_cons (s : List Byte) : crc8 (0x00 :: s) = crc8 s := by
  have hzero : crcAbsorb crcInit 0x00 = crcInit := crcAbsorb_self 0x00
  rw [crc8, crc8From_cons, hzero, crc8]

/-- Settles O25: composition by the fold over an append, the other two by `TABLE[0] = 0`. -/
theorem crcLaws : Obligations.CrcLaws := ⟨crc8_append, crc8_append_crc8, crc8_zero_cons⟩

/-! ### The accumulator commands (40_crc8.md R104 to R106) -/

theorem exec_crcInit (s : State) : exec .crcInit s = .next { s with crc := crcInit, out := .answered .done } := rfl

theorem exec_crcUpd (b : Byte) (s : State) :
    exec (.crcUpd b) s = .next { s with crc := crcAbsorb s.crc b, out := .answered .done } := rfl

theorem exec_crcRd (s : State) : exec .crcRd s = .next { s with out := .answered (.crc s.crc) } := rfl

theorem decode_crcInit : decode (.cmd16 0x0100) = .ok .crcInit := decode_cmd16_eq_ok_iff.mpr rfl

theorem decode_crcRd : decode (.cmd16 0x0300) = .ok .crcRd := decode_cmd16_eq_ok_iff.mpr rfl

/-- The table has an entry at every byte, and `crcAbsorb` takes it. -/
theorem crcTable_getElem?_xor (c b : Byte) : crcTable[(c ^^^ b).toNat]? = some (crcAbsorb c b) := by
  have hlt : (c ^^^ b).toNat < crcTable.length := by
    rw [crcTable_length]
    exact (c ^^^ b).isLt
  rw [List.getElem?_eq_getElem hlt, crcAbsorb, byteAt_eq_getElem hlt]

/-- Settles O21. -/
theorem crcInitSetsZero : Obligations.CrcInitSetsZero := ⟨decode_crcInit, exec_crcInit⟩

/-- Settles O22: the entry at `crc XOR b` exists because the table has 256 of them. -/
theorem crcUpdLooksUpTheTable : Obligations.CrcUpdLooksUpTheTable := fun b =>
  ⟨decode_crcUpd b, fun s => ⟨crcAbsorb s.crc b, crcTable_getElem?_xor s.crc b, exec_crcUpd b s⟩⟩

/-- Settles O23. -/
theorem crcRdAnswersTheAccumulator : Obligations.CrcRdAnswersTheAccumulator := ⟨decode_crcRd, exec_crcRd⟩

/-! ### What each input absorbs (40_crc8.md R107) -/

/-- `crc` has three writers among the instructions (10_state.md R21); every other meaning keeps it. -/
theorem exec_keeps_crc {i : Instr} (hinit : i ≠ .crcInit) (hupd : ∀ b, i ≠ .crcUpd b) (hreset : i ≠ .reset)
    (s : State) : ∃ t, exec i s = .next t ∧ t.crc = s.crc := by
  cases i with
  | crcInit => exact absurd rfl hinit
  | crcUpd b => exact absurd rfl (hupd b)
  | reset => exact absurd rfl hreset
  | frmPush b => obtain ⟨-, h⟩ | ⟨-, -, h⟩ := execFrmPush_cases b s <;> exact ⟨_, h, rfl⟩
  | frmPop => obtain ⟨-, h⟩ | ⟨_, _, -, h⟩ := execFrmPop_cases s <;> exact ⟨_, h, rfl⟩
  | erp1Ext => obtain ⟨-, h⟩ | ⟨-, h⟩ := execErp1Ext_cases s <;> exact ⟨_, h, rfl⟩
  | fldExt => obtain ⟨-, -, h⟩ | ⟨-, h⟩ := execFldExt_cases s <;> exact ⟨_, h, rfl⟩
  | crcRd | frmStat | frmDec | ptypeRadioErp1 | ptypeResponse | ptypeUnsupported => exact ⟨_, rfl, rfl⟩

theorem restartsCrc_eq_false_iff (x : Input) :
    restartsCrc x = false ↔ x ≠ .powerOn ∧ inputInstr x ≠ some .reset ∧ inputInstr x ≠ some .crcInit := by
  simp [restartsCrc, clearsBlock, and_assoc]

theorem absorbedByte_of_crcUpd {x : Input} {b : Byte} (h : inputInstr x = some (.crcUpd b)) : absorbedByte x = [b] := by
  rw [absorbedByte, h]

theorem absorbedByte_of_not_crcUpd {x : Input} (h : ∀ b, inputInstr x ≠ some (.crcUpd b)) : absorbedByte x = [] := by
  rw [absorbedByte]
  split
  · next b hb => exact absurd hb (h b)
  · rfl

/-- A step on an input that does not restart the accumulator folds in the byte the input absorbs, if any. -/
theorem step_absorbs {s t : State} {x : Input} {rest : List Input} (hin : s.inbox = x :: rest)
    (hx : restartsCrc x = false) (h : step s = .next t) : t.crc = crc8From s.crc (absorbedByte x) := by
  obtain ⟨hpow, hreset, hinit⟩ := (restartsCrc_eq_false_iff x).mp hx
  obtain ⟨heng, hs⟩ | ⟨hp, -⟩ | ⟨i, ports, hi, -, hs⟩ | ⟨w, ports, rest', e, hw, hd, hs⟩ := step_shape s
  · obtain rfl : x = .engine := by simpa [engineNext, hin] using heng
    cases h.symm.trans hs
    exact engineTurn_crc _
  · exact absurd (by simpa [powerOnNext, hin] using hp) hpow
  · have hxi : inputInstr x = some i := by simpa [nextInstr, hin] using hi
    rw [hxi, ne_eq, Option.some_inj] at hreset hinit
    by_cases hu : ∃ b, i = .crcUpd b
    · obtain ⟨b, rfl⟩ := hu
      cases h.symm.trans (hs.trans (exec_crcUpd b _))
      rw [absorbedByte_of_crcUpd hxi, crc8From_cons, crc8From_nil]
    · have hupd : ∀ b, i ≠ .crcUpd b := not_exists.mp hu
      obtain ⟨u, hexec, hkeep⟩ := exec_keeps_crc hinit hupd hreset { s with inbox := s.inbox.tail, ports := ports }
      cases h.symm.trans (hs.trans hexec)
      rw [absorbedByte_of_not_crcUpd (by simpa [hxi] using hupd), crc8From_nil, hkeep]
  · cases hin.symm.trans hw
    cases h.symm.trans hs
    rw [absorbedByte_of_not_crcUpd (by simp [inputInstr, hd]), crc8From_nil]

/-- The accumulator after a list of such inputs is the fold of R100 over the bytes they absorb. -/
theorem runSteps_absorbs {xs rest : List Input} (hxs : ∀ x ∈ xs, restartsCrc x = false) :
    ∀ {s : State}, s.inbox = xs ++ rest →
      ∃ t, runSteps xs.length s = some t ∧ t.inbox = rest ∧ t.crc = crc8From s.crc (xs.flatMap absorbedByte) := by
  induction xs with
  | nil => exact fun hin => ⟨_, rfl, hin, rfl⟩
  | cons x xs ih =>
    intro s hin
    obtain ⟨u, hstep, hu, -⟩ := step_next s
    obtain ⟨t, hrun, hrest, hcrc⟩ := ih (fun y hy => hxs y (List.mem_cons_of_mem x hy)) (s := u) (by rw [hu, hin]; rfl)
    refine ⟨t, (runSteps_succ hstep _).trans hrun, hrest, ?_⟩
    rw [hcrc, step_absorbs hin (hxs x List.mem_cons_self) hstep, List.flatMap_cons, crc8From_append]

/-! ### CRC.CALC (30_encoding.md R68) -/

/-- Feeding one transaction of a command runs the command with its port values driven. -/
theorem feedInputs_issue {i : Instr} {w : CmdWord} (hw : encode i = .cmd16 w) {ports : Ports} {s t : State}
    (h : exec i { s with ports := ports } = .next t) (ys : List Input) :
    feedInputs (issue i ports ++ ys) s = feedInputs ys t := by
  have hissue : issue i ports = [.command w ports] := by rw [issue, commandWord, hw]
  rw [hissue]
  exact feedInputs_cons ((step_placed s ports (decode_cmd16_eq_ok_iff.mpr hw)).trans h)

/-- The update loop of CRC.CALC from an accumulator `c`. -/
theorem feedInputs_crcUpds (s : State) (ports : Ports) (ys : List Input) (bs : List Byte) : ∀ c : Byte,
    feedInputs (bs.flatMap (fun b => issue (.crcUpd b) ports) ++ ys)
        { s with crc := c, ports := ports, out := .answered .done }
      = feedInputs ys { s with crc := crc8From c bs, ports := ports, out := .answered .done } := by
  induction bs with
  | nil => exact fun _ => rfl
  | cons b bs ih =>
    intro c
    rw [List.flatMap_cons, List.append_assoc, feedInputs_issue rfl (exec_crcUpd b _)]
    exact ih (crcAbsorb c b)

theorem feedInputs_crcCalc (s : State) (ports : Ports) (bs : List Byte) :
    feedInputs (assemble ports (.crcCalc bs)) s
      = some { s with crc := crc8 bs, ports := ports, out := .answered (.crc (crc8 bs)) } := by
  rw [assemble, List.append_assoc, feedInputs_issue rfl (exec_crcInit _), feedInputs_crcUpds,
    ← List.append_nil (issue .crcRd ports), feedInputs_issue rfl (exec_crcRd _)]
  rfl

/-- Settles O28: CRC.INIT, then the inputs between by `runSteps_absorbs`, then CRC.RD; CRC.CALC by its update loop. -/
theorem accumulatorAnswersCrcOfItsBytes : Obligations.AccumulatorAnswersCrcOfItsBytes := by
  constructor
  · intro s xs p q rest hxs hin
    have hinit := (step_command hin decode_crcInit).trans (exec_crcInit _)
    obtain ⟨t, hrun, hrest, hcrc⟩ := runSteps_absorbs hxs (rest := .command 0x0300 q :: rest)
      (s := { s with inbox := xs ++ .command 0x0300 q :: rest, ports := p, crc := crcInit, out := .answered .done }) rfl
    have hread := (step_command hrest decode_crcRd).trans (exec_crcRd _)
    refine ⟨{ t with inbox := rest, ports := q, out := .answered (.crc t.crc) }, ?_, by rw [hcrc]; rfl⟩
    calc runSteps (xs.length + 2) s
        = runSteps (xs.length + 1) _ := runSteps_succ hinit _
      _ = runSteps 1 t := runSteps_add hrun 1
      _ = some _ := runSteps_succ hread 0
  · intro s ports bs
    exact ⟨_, feedInputs_crcCalc s ports bs, rfl, rfl, rfl, rfl, rfl, rfl⟩

end Sys2Proof.Machine
end

section
/-! PROOFS. The statements on 41_framer.md: packet types (R120), one-shot decode (R130) and its agreement with the engine
(R156), streams (R157 to R159), and the framer commands (R150, R152, R153). -/

namespace Sys2Proof.Machine

/-! ### Packet types (41_framer.md R120) -/

theorem classify_unsupported {c : Byte} (hradio : c ≠ 0x01) (hresp : c ≠ 0x02) : classify c = .unsupported c := by
  rw [classify, if_neg hradio, if_neg hresp]

/-- Settles O19. -/
theorem classifyKeepsTheCode : Obligations.ClassifyKeepsTheCode :=
  ⟨rfl, rfl, fun _ => classify_unsupported, ptypeCode_classify⟩

/-! ### One-shot decode, by the engine's case (41_framer.md R130, R156) -/

/-- The checks of FRM.DEC behind a sync byte and a whole header, in the field readers the engine uses. -/
theorem decodeFrame_of_sync {b : List Byte} (hsync : byteAt b 0 = 0x55) (h6 : 6 ≤ b.length) :
    decodeFrame b
      = if hdrOK b = false then .err .headerCrcMismatch
        else if b.length < frameLen b then .err .truncatedFrame
        else if bodyCrcOK b = false then .err .dataCrcMismatch
        else .ok (packetOf b) := by
  have hhdr : hdrOK b = false ↔ crc8 (slice b 1 4) ≠ byteAt b 5 := by simp [hdrOK, h6]
  rw [decodeFrame, if_neg (by omega), if_neg (by rw [hsync, Config.sync]; decide), if_neg (by omega), frameLen_eq]
  simp only [hhdr]

/-- A sequence without a case is a frame still incomplete. -/
theorem decodeFrame_of_idle {b : List Byte} (h : drainCase b = none) : decodeFrame b = .err .truncatedFrame := by
  obtain rfl | ⟨hne, hsync, hshort⟩ | ⟨hsync, h6, hhdr, hlen⟩ := drainCase_none h
  · rfl
  · obtain ⟨x, tl, rfl⟩ := List.exists_cons_of_ne_nil hne
    rw [byteAt_cons_zero] at hsync
    rw [hsync, decodeFrame_short (Nat.lt_of_succ_lt_succ hshort)]
  · simp [decodeFrame_of_sync hsync h6, hhdr, hlen]

/-- What the engine emits for a sequence is its one-shot decode; only the silent skip of a byte that is no sync byte has
nothing to agree with. -/
theorem drainEmission_eq_decodeFrame {b : List Byte} {c : DrainCase} (h : drainCase b = some c) (hskip : c ≠ .skip) :
    drainEmission c b = some (decodeFrame b) := by
  obtain ⟨-, hfacts⟩ := drainCase_spec h
  cases c with
  | skip => exact absurd rfl hskip
  | badHeader =>
    obtain ⟨hsync, h6, hhdr⟩ := hfacts
    simp [decodeFrame_of_sync hsync h6, drainEmission, hhdr]
  | badData =>
    obtain ⟨hsync, h6, hhdr, hlen, hbody⟩ := hfacts
    simp [decodeFrame_of_sync hsync h6, drainEmission, hhdr, hlen.not_gt, hbody]
  | packet =>
    obtain ⟨hsync, h6, hhdr, hlen, hbody⟩ := hfacts
    simp [decodeFrame_of_sync hsync h6, drainEmission, hhdr, hlen.not_gt, hbody]

/-- The decode of a sequence whose case emits `r`. -/
theorem decodeFrame_of_emission {b : List Byte} {c : DrainCase} {r : FrameResult} (h : drainCase b = some c)
    (he : drainEmission c b = some r) : decodeFrame b = r := by
  have hskip : c ≠ .skip := by rintro rfl; cases he
  exact Option.some.inj ((drainEmission_eq_decodeFrame h hskip).symm.trans he)

/-- A sync byte at the head rules out the skip. -/
theorem drainCase_ne_skip {b : List Byte} {c : DrainCase} (h : drainCase b = some c) (hsync : byteAt b 0 = 0x55) :
    c ≠ .skip := by
  rintro rfl
  exact (drainCase_spec h).2 hsync

/-- Settles O37: the frame's case is still its case with `post` behind it, and emits its decode. -/
theorem engineAgreesWithOneShotDecode : Obligations.EngineAgreesWithOneShotDecode := by
  intro f post q hsync _ hdec
  cases hcase : drainCase f with
  | none => exact absurd (decodeFrame_of_idle hcase) hdec
  | some c =>
    have hstep := drainStep_of_case q (drainCase_append post hcase)
    rw [drainEmission_append post hcase, drainEmission_eq_decodeFrame hcase (drainCase_ne_skip hcase hsync)] at hstep
    exact ⟨_, hstep⟩

section
variable {d1 d0 ol pt hc dc : Byte} {data opt post : List Byte}

theorem decodeFrame_badData (hhdr : crc8 [d1, d0, ol, pt] = hc) (hd : data.length = d1.toNat * 256 + d0.toNat)
    (ho : opt.length = ol.toNat) (hbody : crc8 (data ++ opt) ≠ dc) :
    decodeFrame (0x55 :: d1 :: d0 :: ol :: pt :: hc :: (data ++ opt ++ dc :: post)) = .err .dataCrcMismatch :=
  decodeFrame_of_emission ((drainCase_complete hhdr hd ho).trans (if_neg hbody)) rfl

theorem decodeFrame_packet (hhdr : crc8 [d1, d0, ol, pt] = hc) (hd : data.length = d1.toNat * 256 + d0.toNat)
    (ho : opt.length = ol.toNat) (hbody : crc8 (data ++ opt) = dc) :
    decodeFrame (0x55 :: d1 :: d0 :: ol :: pt :: hc :: (data ++ opt ++ dc :: post))
      = .ok { ptype := classify pt, data := data, opt := opt } :=
  decodeFrame_of_emission ((drainCase_complete hhdr hd ho).trans (if_pos hbody))
    (by rw [drainEmission, packetOf_frame 0x55 d1 d0 ol pt hc dc data opt post hd ho])

end

theorem decodeFrame_ser {p : Esp3Packet} (h : pktOk p = true) (post : List Byte) :
    decodeFrame (ser p ++ post) = .ok p :=
  decodeFrame_of_emission (drainCase_ser h post) (by rw [drainEmission, packetOf_ser h])

theorem decode_frmDec : decode (.cmd16 0x1300) = .ok .frmDec := decode_cmd16_eq_ok_iff.mpr rfl

theorem exec_frmDec (s : State) :
    exec .frmDec s = .next { s with out := .answered (resultResponse (decodeFrame s.ports.frame)) } := rfl

/-- Settles O29: the answer is the one-shot decode of the frame, whose clauses are those of the engine's cases. -/
theorem frmDecAnswersInOrder : Obligations.FrmDecAnswersInOrder := by
  refine ⟨decode_frmDec, fun s => ⟨_, exec_frmDec s, ?_, ?_, ?_, ?_⟩⟩
  · intro hf
    rw [hf, decodeFrame_of_idle drainCase_nil, resultResponse]
  · intro x tl hf hx
    rw [hf, decodeFrame_garbage tl hx, resultResponse]
  · intro tl hf hshort
    rw [hf, decodeFrame_short hshort, resultResponse]
  · intro d1 d0 ol pt hc tl hf
    rw [hf]
    constructor
    · intro hhdr
      rw [decodeFrame_of_emission (drainCase_badHeader hhdr) rfl, resultResponse]
    · intro hhdr
      constructor
      · intro hlen
        rw [decodeFrame_of_idle (drainCase_incomplete hhdr hlen), resultResponse]
      · rintro data opt dc post rfl hd ho
        constructor
        · intro hbody
          rw [decodeFrame_badData hhdr hd ho hbody, resultResponse]
        · intro hbody
          rw [decodeFrame_packet hhdr hd ho hbody, resultResponse]

/-! ### What a step without RESET or power-on does to the framer (41_framer.md R158) -/

/-- The instructions that may touch the framer's state are the push, the pop and RESET (10_state.md R22, R24). -/
theorem exec_keeps_framer {i : Instr} (hpush : ∀ b, i ≠ .frmPush b) (hpop : i ≠ .frmPop) (hreset : i ≠ .reset)
    (s : State) : ∃ t, exec i s = .next t ∧ t.fbuf = s.fbuf ∧ t.rq = s.rq := by
  cases i with
  | frmPush b => exact absurd rfl (hpush b)
  | frmPop => exact absurd rfl hpop
  | reset => exact absurd rfl hreset
  | erp1Ext => obtain ⟨-, h⟩ | ⟨-, h⟩ := execErp1Ext_cases s <;> exact ⟨_, h, rfl, rfl⟩
  | fldExt => obtain ⟨-, -, h⟩ | ⟨-, h⟩ := execFldExt_cases s <;> exact ⟨_, h, rfl, rfl⟩
  | _ => exact ⟨_, rfl, rfl, rfl⟩

theorem pushedBy_of_push {s t : State} {b : Byte} (h : nextInstr s = some (.frmPush b)) :
    pushedBy s t = if t.out = .answered .done then [b] else [] := by
  rw [pushedBy, h]

theorem pushedBy_of_not_push {s : State} (h : ∀ b, nextInstr s ≠ some (.frmPush b)) (t : State) : pushedBy s t = [] := by
  rw [pushedBy]
  split
  · next b hb => exact absurd hb (h b)
  · rfl

theorem poppedBy_of_not_pop {s : State} (h : nextInstr s ≠ some .frmPop) (t : State) : poppedBy s t = [] := by
  rw [poppedBy]
  split
  · next hp => exact absurd hp h
  · rfl

theorem poppedBy_of_empty {s t : State} (ht : t.out = .answered .empty) : poppedBy s t = [] := by
  rw [poppedBy, ht]
  split <;> rfl

theorem poppedBy_of_result {s t : State} {r : FrameResult} (h : nextInstr s = some .frmPop)
    (ht : t.out = .answered (resultResponse r)) : poppedBy s t = [r] := by
  rw [poppedBy, h, ht]
  cases r <;> rfl

/-- What a step from `s` to `t` did to the framer, and what a stream saw of it. -/
inductive FramerMove (s t : State) : Prop where
  /-- Nothing. -/
  | quiet (hbuf : t.fbuf = s.fbuf) (hrq : t.rq = s.rq) (hpush : pushedBy s t = []) (hpop : poppedBy s t = [])
  /-- A byte was accepted. -/
  | push (b : Byte) (hbuf : t.fbuf = s.fbuf ++ [b]) (hrq : t.rq = s.rq) (hpush : pushedBy s t = [b])
      (hpop : poppedBy s t = [])
  /-- The head of the queue was delivered. -/
  | pop (r : FrameResult) (hbuf : t.fbuf = s.fbuf) (hrq : s.rq = r :: t.rq) (hpush : pushedBy s t = [])
      (hpop : poppedBy s t = [r])
  /-- The engine took a step. -/
  | drain (hstep : drainStep s.rqDepth s.fbuf s.rq = some (t.fbuf, t.rq)) (hpush : pushedBy s t = [])
      (hpop : poppedBy s t = [])

theorem framerMove_of_push {s t u : State} {b : Byte} (hnext : nextInstr s = some (.frmPush b))
    (h : exec (.frmPush b) u = .next t) (hbuf : u.fbuf = s.fbuf) (hrq : u.rq = s.rq) : FramerMove s t := by
  have hpop : poppedBy s t = [] := poppedBy_of_not_pop (by simp [hnext]) t
  obtain ⟨-, hu⟩ | ⟨-, -, hu⟩ := execFrmPush_cases b u
  · cases h.symm.trans hu
    exact .quiet hbuf hrq (pushedBy_of_push hnext) hpop
  · cases h.symm.trans hu
    exact .push b (congrArg (· ++ [b]) hbuf) hrq (pushedBy_of_push hnext) hpop

theorem framerMove_of_pop {s t u : State} (hnext : nextInstr s = some .frmPop) (h : exec .frmPop u = .next t)
    (hbuf : u.fbuf = s.fbuf) (hrq : u.rq = s.rq) : FramerMove s t := by
  have hpush : pushedBy s t = [] := pushedBy_of_not_push (by simp [hnext]) t
  obtain ⟨-, hu⟩ | ⟨r, q, hr, hu⟩ := execFrmPop_cases u
  · cases h.symm.trans hu
    exact .quiet hbuf hrq hpush (poppedBy_of_empty rfl)
  · cases h.symm.trans hu
    exact .pop r hbuf (hrq.symm.trans hr) hpush (poppedBy_of_result hnext rfl)

/-- A step that runs no instruction shows the stream nothing. -/
theorem observes_nothing {s : State} (h : nextInstr s = none) (t : State) : pushedBy s t = [] ∧ poppedBy s t = [] :=
  ⟨pushedBy_of_not_push (by simp [h]) t, poppedBy_of_not_pop (by simp [h]) t⟩

theorem nextInstr_of_engineNext {s : State} (h : engineNext s = true) : nextInstr s = none := by
  obtain hin | ⟨rest, hin⟩ := (engineNext_iff s).mp h <;> rw [nextInstr, hin]
  rfl

theorem clearsBlock_eq_false_iff (x : Input) :
    clearsBlock x = false ↔ x ≠ .powerOn ∧ inputInstr x ≠ some .reset := by
  simp [clearsBlock]

theorem powerOnNext_false_of_keeps {s : State} (hin : ∀ x ∈ s.inbox, clearsBlock x = false) : powerOnNext s = false := by
  cases h : s.inbox with
  | nil => rw [powerOnNext, h]
  | cons x rest =>
    obtain ⟨hpow, -⟩ := (clearsBlock_eq_false_iff x).mp (hin x (by simp [h]))
    simpa [powerOnNext, h] using hpow

theorem nextInstr_ne_reset_of_keeps {s : State} (hin : ∀ x ∈ s.inbox, clearsBlock x = false) :
    nextInstr s ≠ some .reset := by
  cases h : s.inbox with
  | nil => simp [nextInstr, h]
  | cons x rest =>
    obtain ⟨-, hreset⟩ := (clearsBlock_eq_false_iff x).mp (hin x (by simp [h]))
    simpa [nextInstr, h] using hreset

/-- With no RESET or power-on in the inbox, every step is one of the four moves. -/
theorem framerMove_of_step {s t : State} (hin : ∀ x ∈ s.inbox, clearsBlock x = false) (h : step s = .next t) :
    FramerMove s t := by
  obtain ⟨heng, hs⟩ | ⟨hpow, -⟩ | ⟨i, ports, hnext, -, hs⟩ | ⟨w, ports, rest, e, hw, hd, hs⟩ := step_shape s
  · obtain ⟨hpush, hpop⟩ := observes_nothing (nextInstr_of_engineNext heng) t
    cases h.symm.trans hs
    obtain ⟨-, ht⟩ | ⟨b, q, hstep, ht⟩ := engineTurn_cases { s with inbox := s.inbox.tail }
    · exact .quiet (by rw [ht]) (by rw [ht]) hpush hpop
    · exact .drain (by rw [ht]; exact hstep) hpush hpop
  · rw [powerOnNext_false_of_keeps hin] at hpow
    cases hpow
  · rw [hs] at h
    by_cases hpush : ∃ b, i = .frmPush b
    · obtain ⟨b, rfl⟩ := hpush
      exact framerMove_of_push hnext h rfl rfl
    by_cases hpop : i = .frmPop
    · subst hpop
      exact framerMove_of_pop hnext h rfl rfl
    have hreset : i ≠ .reset := by
      rintro rfl
      exact nextInstr_ne_reset_of_keeps hin hnext
    obtain ⟨u, hu, hbuf, hrq⟩ := exec_keeps_framer (not_exists.mp hpush) hpop hreset
      { s with inbox := s.inbox.tail, ports := ports }
    cases h.symm.trans hu
    exact .quiet hbuf hrq (pushedBy_of_not_push (by simpa [hnext] using hpush) t)
      (poppedBy_of_not_pop (by simpa [hnext] using hpop) t)
  · obtain ⟨hpush, hpop⟩ := observes_nothing (s := s) (by simp [nextInstr, hw, inputInstr, hd]) t
    cases h.symm.trans hs
    exact .quiet rfl rfl hpush hpop

/-! ### Streams (41_framer.md R157 to R159) -/

/-- The invariant of a stream: nothing ahead clears the block, and draining what is still buffered, after the results
emitted so far, gives what draining all the accepted bytes gives. -/
structure StreamInv (tr : Trace) : Prop where
  keeps : ∀ x ∈ tr.now.inbox, clearsBlock x = false
  drains : drain tr.now.fbuf (tr.popped ++ tr.now.rq) = drain tr.pushed []

/-- Results already taken off the front of the queue do not steer a drain. -/
theorem drain_prepend (b : List Byte) (p q : List FrameResult) :
    drain b (p ++ q) = ((drain b q).1, p ++ (drain b q).2) := by
  rw [drain_queue b (p ++ q), drain_queue b q, List.append_assoc]

/-- Two buffers that drain alike still do with more bytes behind both. -/
theorem drain_append_congr {a b : List Byte} {p q : List FrameResult} (h : drain a p = drain b q) (y : List Byte) :
    drain (a ++ y) p = drain (b ++ y) q := by
  rw [drain_append a, drain_append b, h]

/-- A move keeps the equation of `StreamInv`. -/
theorem framerMove_drains {s t : State} {pushed : List Byte} {popped : List FrameResult} (hmove : FramerMove s t)
    (h : drain s.fbuf (popped ++ s.rq) = drain pushed []) :
    drain t.fbuf (popped ++ poppedBy s t ++ t.rq) = drain (pushed ++ pushedBy s t) [] := by
  cases hmove with
  | quiet hbuf hrq hpush hpop => rw [hbuf, hrq, hpush, hpop, List.append_nil, List.append_nil, h]
  | push b hbuf hrq hpush hpop => rw [hbuf, hrq, hpush, hpop, List.append_nil, drain_append_congr h]
  | pop r hbuf hrq hpush hpop =>
    rw [hbuf, hpush, hpop, List.append_nil, ← h, hrq, List.append_assoc, List.singleton_append]
  | drain hstep hpush hpop =>
    have hunb : drainStep .unbounded s.fbuf s.rq = some (t.fbuf, t.rq) := by simpa using drainStep_append [] hstep
    rw [hpush, hpop, List.append_nil, List.append_nil, ← h, drain_prepend, drain_prepend, drain_step hunb]

theorem streamInv_traceStep {tr : Trace} (h : StreamInv tr) : StreamInv (traceStep tr) := by
  obtain ⟨t, hstep, hin, -, -⟩ := step_next tr.now
  rw [traceStep, hstep]
  exact ⟨fun x hx => h.keeps x (List.mem_of_mem_tail (hin ▸ hx)),
    framerMove_drains (framerMove_of_step h.keeps hstep) h.drains⟩

theorem streamInv_traceRun {s : State} (h : StreamStart s) (n : Nat) : StreamInv (traceRun n s) := by
  induction n with
  | zero =>
    obtain ⟨hbuf, hrq, hin⟩ := h
    exact ⟨hin, by simp [traceRun, hbuf, hrq]⟩
  | succ n ih => exact streamInv_traceStep ih

/-- Settles O38: at an idle moment there is nothing left to drain in the stream's invariant. -/
theorem resultsDependOnlyOnTheAcceptedBytes : Obligations.ResultsDependOnlyOnTheAcceptedBytes := by
  intro s n hstart tr hidle
  have hinv := (streamInv_traceRun hstart n).drains
  rwa [drain_idle _ ((idle_iff _).mp hidle)] at hinv

/-- At an idle moment a stream whose accepted bytes drain to `(b, q)` has emitted `q` and holds `b`. -/
theorem stream_results {s : State} {n : Nat} {bs b : List Byte} {q : List FrameResult} (hstart : StreamStart s)
    (hpushed : (traceRun n s).pushed = bs) (hidle : Idle (traceRun n s).now.fbuf) (hdrain : drain bs [] = (b, q)) :
    (traceRun n s).popped ++ (traceRun n s).now.rq = q ∧ (traceRun n s).now.fbuf = b := by
  have h := resultsDependOnlyOnTheAcceptedBytes s n hstart hidle
  rw [hpushed, hdrain, Prod.mk.injEq] at h
  exact h.symm

/-- A serialized packet with nothing behind it drains to itself. -/
theorem drain_ser_alone {p : Esp3Packet} (h : pktOk p = true) (q : List FrameResult) :
    drain (ser p) q = ([], q ++ [.ok p]) := by
  rw [← List.append_nil (ser p), drain_ser h, drain_idle _ drainCase_nil]

/-- Settles O41: FRM.DEC by the decode of the serialization, the stream by its drain. -/
theorem serializedPacketComesBack : Obligations.SerializedPacketComesBack := by
  intro p hp
  constructor
  · intro s post hf
    rw [exec_frmDec, hf, decodeFrame_ser hp, resultResponse]
  · intro s n hstart tr hpushed hidle
    exact stream_results hstart hpushed hidle (drain_ser_alone hp [])

/-- The serialization with a data byte replaced: the header and the data CRC are still those of `p`. -/
theorem ser_set_data {p : Esp3Packet} {k : Nat} (hk : k < p.data.length) (x : Byte) :
    (ser p).set (6 + k) x
      = 0x55 :: BitVec.ofNat 8 (p.data.length / 256) :: BitVec.ofNat 8 p.data.length :: BitVec.ofNat 8 p.opt.length
        :: ptypeCode p.ptype
        :: crc8 [BitVec.ofNat 8 (p.data.length / 256), BitVec.ofNat 8 p.data.length, BitVec.ofNat 8 p.opt.length,
            ptypeCode p.ptype]
        :: (p.data.set k x ++ p.opt ++ [crc8 (p.data ++ p.opt)]) := by
  rw [ser_eq, Nat.add_comm]
  simp only [List.set_cons_succ, List.append_assoc, List.set_append_left _ _ hk]

/-- A replaced data byte that the data CRC sees makes the bad-data case (41_framer.md R146). -/
theorem drainCase_ser_set_data {p : Esp3Packet} (hp : pktOk p = true) {k : Nat} (hk : k < p.data.length) {x : Byte}
    (hcrc : crc8 (p.data.set k x ++ p.opt) ≠ crc8 (p.data ++ p.opt)) (post : List Byte) :
    drainCase ((ser p).set (6 + k) x ++ post) = some .badData := by
  obtain ⟨hd, ho⟩ := ser_lengths hp
  have hcase := drainCase_complete (dc := crc8 (p.data ++ p.opt)) (post := post) (pt := ptypeCode p.ptype) rfl
    ((List.length_set (as := p.data) (i := k) (a := x)).trans hd.symm) ho.symm
  rw [if_neg hcrc] at hcase
  simpa [ser_set_data hk] using hcase

/-- Settles O42: one error for the sync byte, the rest of the frame skipped, then the second packet. -/
theorem resynchronisesAfterACorruptedFrame : Obligations.ResynchronisesAfterACorruptedFrame := by
  intro s n k p1 p2 x hstart hp1 hp2 hk f1 hcrc hgarbage tr hpushed hidle
  have hcase : drainCase (f1 ++ ser p2) = some .badData := drainCase_ser_set_data hp1 hk hcrc (ser p2)
  have htail : (f1 ++ ser p2).drop 1 = f1.tail ++ ser p2 := by simp [f1, ser_set_data hk]
  refine stream_results hstart hpushed hidle ?_
  calc drain (f1 ++ ser p2) []
      = drain ((f1 ++ ser p2).drop 1) [.err .dataCrcMismatch] := drain_case [] hcase
    _ = drain (ser p2) [.err .dataCrcMismatch] := by rw [htail, drain_garbage hgarbage]
    _ = ([], [.err .dataCrcMismatch, .ok p2]) := drain_ser_alone hp2 _

/-! ### FRM.PUSH and FRM.POP (41_framer.md R150, R152) -/

theorem exec_frmPush_busy {s : State} (b : Byte) (h : needsWork s.fbuf = true ∨ Config.bufCap ≤ s.fbuf.length) :
    exec (.frmPush b) s = .next { s with out := .answered .busy } := by
  obtain ⟨-, hexec⟩ | ⟨hidle, hlen, -⟩ := execFrmPush_cases b s
  · exact hexec
  · rw [hidle] at h
    exact absurd hlen (h.resolve_left Bool.false_ne_true).not_gt

theorem exec_frmPush_done {s : State} (b : Byte) (hidle : Idle s.fbuf) (hlen : s.fbuf.length < Config.bufCap) :
    exec (.frmPush b) s = .next { s with fbuf := s.fbuf ++ [b], out := .answered .done } := by
  obtain ⟨hbusy | hfull, -⟩ | ⟨-, -, hexec⟩ := execFrmPush_cases b s
  · exact absurd (hidle.symm.trans hbusy) Bool.false_ne_true
  · exact absurd hlen hfull.not_gt
  · exact hexec

/-- Settles O45. -/
theorem frmPushAppendsOrIsBusy : Obligations.FrmPushAppendsOrIsBusy := fun b =>
  ⟨decode_frmPush b, fun _ => ⟨exec_frmPush_busy b, exec_frmPush_done b⟩⟩

theorem decode_frmPop : decode (.cmd16 0x1100) = .ok .frmPop := decode_cmd16_eq_ok_iff.mpr rfl

theorem exec_frmPop_empty {s : State} (h : s.rq = []) : exec .frmPop s = .next { s with out := .answered .empty } := by
  obtain ⟨-, hexec⟩ | ⟨r, q, hr, -⟩ := execFrmPop_cases s
  · exact hexec
  · cases h.symm.trans hr

theorem exec_frmPop_cons {s : State} {r : FrameResult} {q : List FrameResult} (h : s.rq = r :: q) :
    exec .frmPop s = .next { s with rq := q, out := .answered (resultResponse r) } := by
  obtain ⟨hr, -⟩ | ⟨r', q', hr, hexec⟩ := execFrmPop_cases s
  · cases h.symm.trans hr
  · cases h.symm.trans hr
    exact hexec

/-- Settles O47. -/
theorem frmPopDeliversTheHead : Obligations.FrmPopDeliversTheHead :=
  ⟨decode_frmPop, fun _ => ⟨exec_frmPop_empty, fun _ _ => exec_frmPop_cons, fun _ _ => exec_frmPop_cons⟩⟩

/-! ### FRM.STAT (41_framer.md R153, 10_state.md R25, R29) -/

theorem decode_frmStat : decode (.cmd16 0x1200) = .ok .frmStat := decode_cmd16_eq_ok_iff.mpr rfl

theorem exec_frmStat (s : State) : exec .frmStat s = .next { s with out := .answered (.status (statusWord s)) } := rfl

section
variable {b : List Byte}

theorem frameMode_busy (h : needsWork b = true) : frameMode b = .busy := by
  rw [frameMode, if_pos h]

theorem frameMode_header (hidle : Idle b) (hne : b ≠ []) (hlen : b.length < 6) : frameMode b = .header := by
  rw [frameMode, if_neg (by rw [hidle]; decide), if_neg (by simpa using hne), if_pos hlen]

theorem frameMode_body (hidle : Idle b) (hlen : 6 ≤ b.length) : frameMode b = .body := by
  rw [frameMode, if_neg (by rw [hidle]; decide), if_neg (by omega), if_neg (by omega)]

theorem frameNeed_busy (h : needsWork b = true) : frameNeed b = 0 := by
  rw [frameNeed, frameMode_busy h]

theorem frameNeed_header (hidle : Idle b) (hne : b ≠ []) (hlen : b.length < 6) : frameNeed b = 6 - b.length := by
  rw [frameNeed, frameMode_header hidle hne hlen]

theorem frameNeed_body (hidle : Idle b) (hlen : 6 ≤ b.length) : frameNeed b = frameLen b - b.length := by
  rw [frameNeed, frameMode_body hidle hlen]

end

/-- What a framer can still need is less than a whole frame, so it fits the 17 bits of `NEED`. -/
theorem frameNeed_le (b : List Byte) : frameNeed b ≤ Config.maxFrame := by
  have hlen := frameLen_le b
  rw [frameNeed]
  cases frameMode b with
  | seek => exact Nat.zero_le _
  | header => exact (Nat.sub_le _ _).trans (by decide)
  | body => exact (Nat.sub_le _ _).trans hlen
  | busy => exact Nat.zero_le _

section
variable (s : State)

theorem status_need_toNat : ((statusWord s).extractLsb' 32 17).toNat = frameNeed s.fbuf := by
  have hle := frameNeed_le s.fbuf
  rw [Config.maxFrame] at hle
  rw [status_need, BitVec.toNat_ofNat, Nat.mod_eq_of_lt (by omega)]

theorem status_bufLen_toNat (h : s.fbuf.length ≤ 65797) : ((statusWord s).extractLsb' 8 17).toNat = s.fbuf.length := by
  rw [status_bufLen, BitVec.toNat_ofNat, Nat.mod_eq_of_lt (by omega)]

/-- `MODE` and `NEED` of the status word, from the buffer's mode and need. -/
theorem status_mode_need {m : Mode} {n : Nat} (hmode : frameMode s.fbuf = m) (hneed : frameNeed s.fbuf = n) :
    ((statusWord s).extractLsb' 0 2).toNat = (modeCode m).toNat ∧ ((statusWord s).extractLsb' 32 17).toNat = n := by
  rw [status_mode, status_need_toNat, hmode, hneed]
  exact ⟨rfl, rfl⟩

end

theorem rqNonEmpty_iff (q : List FrameResult) : rqNonEmpty q = true ↔ q ≠ [] := by
  simp [rqNonEmpty]

theorem rqFull_iff (d : QueueDepth) (q : List FrameResult) : rqFull d q = true ↔ d = .bounded q.length := by
  cases d with
  | unbounded => simp [rqFull]
  | bounded n => simp [rqFull, eq_comm]

/-- Settles O48: each field by the lemma for its bits, each mode by `status_mode_need`. -/
theorem frmStatShowsTheFields : Obligations.FrmStatShowsTheFields := by
  refine ⟨decode_frmStat, fun s hlen => ?_⟩
  obtain ⟨hlow, hmid, hhigh⟩ := status_reserved s
  refine ⟨statusWord s, exec_frmStat s, ?busy, ?seek, ?header, ?body, ?nonEmpty, ?full, hlow,
    status_bufLen_toNat s hlen, hmid, hhigh⟩
  case busy => exact fun h => status_mode_need s (frameMode_busy h) (frameNeed_busy h)
  case seek =>
    intro h
    exact status_mode_need s (by rw [h, frameMode_nil]) (by rw [h, frameNeed_nil])
  case header =>
    intro hidle hne h6
    exact status_mode_need s (frameMode_header hidle hne h6) (frameNeed_header hidle hne h6)
  case body =>
    intro x d1 d0 ol tl hidle h6 hbuf
    have hneed := frameNeed_body hidle h6
    rw [show frameLen s.fbuf = _ by rw [hbuf, frameLen_header]] at hneed
    exact status_mode_need s (frameMode_body hidle h6) hneed
  case nonEmpty => rw [status_rqNonEmpty, rqNonEmpty_iff]
  case full => rw [status_rqFull, rqFull_iff]

end Sys2Proof.Machine
end

section
/-! PROOFS. The statements on 42_erp1.md: the telegram ERP1.EXT answers (R170 to R172) and the bits of the field FLD.EXT
answers (R180, R181). -/

namespace Sys2Proof.Machine

/-! ### The operand invariant of ERP1.EXT (30_encoding.md R82) -/

theorem ptypeOk_eq_false_iff (t : PacketType) :
    ptypeOk t = false ↔ t = .unsupported 0x01 ∨ t = .unsupported 0x02 := by
  cases t with
  | radioErp1 => simp [ptypeOk]
  | response => simp [ptypeOk]
  | unsupported c => simp [ptypeOk, imp_iff_not_or]

theorem pktOk_eq_false_iff (p : Esp3Packet) :
    pktOk p = false ↔ 65535 < p.data.length ∨ 255 < p.opt.length ∨ p.ptype = .unsupported 0x01
      ∨ p.ptype = .unsupported 0x02 := by
  rw [← ptypeOk_eq_false_iff, ← Bool.not_eq_true, pktOk_iff, ← Bool.not_eq_true, not_and_or,
    not_and_or, not_le, not_le]

theorem decode_erp1Ext : decode (.cmd16 0x2000) = .ok .erp1Ext := decode_cmd16_eq_ok_iff.mpr rfl

theorem exec_erp1Ext_legal {s : State} (h : pktOk s.ports.pkt = true) :
    exec .erp1Ext s = .next { s with out := .answered (extractErp1 s.ports.pkt) } := by
  obtain ⟨-, hexec⟩ | ⟨hbad, -⟩ := execErp1Ext_cases s
  · exact hexec
  · cases h.symm.trans hbad

theorem exec_erp1Ext_illegal {s : State} (h : pktOk s.ports.pkt = false) :
    exec .erp1Ext s = .next { s with refused := true, out := .refusal .operandInvariant } := by
  obtain ⟨hok, -⟩ | ⟨-, hexec⟩ := execErp1Ext_cases s
  · cases h.symm.trans hok
  · exact hexec

/-! ### The answer of ERP1.EXT: type first, then length (60_exceptions.md R205) -/

section
variable {p : Esp3Packet}

theorem extractErp1_otherType (h : p.ptype ≠ .radioErp1) : extractErp1 p = .err .wrongPacketType := by
  rw [extractErp1, if_pos h]

theorem extractErp1_short (ht : p.ptype = .radioErp1) (hlen : p.data.length < Config.minErp1DataLen) :
    extractErp1 p = .err .payloadTooShort := by
  rw [extractErp1, if_neg (not_not.mpr ht), if_pos hlen]

theorem extractErp1_telegram (ht : p.ptype = .radioErp1) (hlen : Config.minErp1DataLen ≤ p.data.length) :
    extractErp1 p = .telegram (telegramOf p.data p.opt) := by
  rw [extractErp1, if_neg (not_not.mpr ht), if_neg hlen.not_gt]

end

/-! ### The fields of a telegram (42_erp1.md R170 to R172) -/

theorem byteAt_append_add (s t : List Byte) (i : Nat) : byteAt (s ++ t) (s.length + i) = byteAt t i := by
  rw [byteAt_append_right (Nat.le_add_right _ _), Nat.add_sub_cancel_left]

/-- `BE32` of the four bytes after a prefix. -/
theorem be32_append_toNat (s : List Byte) (a b c d : Byte) (t : List Byte) :
    (be32 (s ++ a :: b :: c :: d :: t) s.length).toNat
      = a.toNat * 2 ^ 24 + b.toNat * 2 ^ 16 + c.toNat * 2 ^ 8 + d.toNat := by
  rw [be32_toNat, byteAt_append_length, byteAt_append_add, byteAt_append_add, byteAt_append_add]
  rfl

section
variable {α : Type} {need : Nat} {o : List Byte} (v : α)

theorem optField_present (h : need ≤ o.length) : optField need o v = some v := if_pos h

theorem optField_absent (h : o.length < need) : optField need o v = none := if_neg h.not_ge

end

/-- A one-byte optional field is the list's own partial read: no value is made up for a missing byte (R172). -/
theorem optField_byteAt (o : List Byte) (i : Nat) : optField (i + 1) o (byteAt o i) = o[i]? := by
  obtain h | h := Nat.lt_or_ge i o.length
  · rw [optField_present _ h, byteAt_eq_getElem h, List.getElem?_eq_getElem h]
  · rw [optField_absent _ (Nat.lt_succ_of_le h), List.getElem?_eq_none h]

theorem optField_map {α β : Type} (f : α → β) (need : Nat) (o : List Byte) (v : α) :
    optField need o (f v) = (optField need o v).map f := by
  rw [optField, optField, apply_ite (Option.map f)]
  rfl

section
variable (rorg : Byte) (payload : List Byte) (a b c d st : Byte) (opt : List Byte)

theorem telegramOf_payload : (telegramOf (rorg :: payload ++ [a, b, c, d, st]) opt).payload = payload := by
  have hlen : (rorg :: payload ++ [a, b, c, d, st]).length - 6 = payload.length := by simp
  rw [telegramOf, hlen, List.cons_append, slice_cons_succ, slice_zero_append]

theorem telegramOf_senderId : (telegramOf (rorg :: payload ++ [a, b, c, d, st]) opt).senderId.toNat
    = a.toNat * 2 ^ 24 + b.toNat * 2 ^ 16 + c.toNat * 2 ^ 8 + d.toNat := by
  have hlen : (rorg :: payload ++ [a, b, c, d, st]).length - 5 = (rorg :: payload).length := by simp
  rw [telegramOf, hlen, be32_append_toNat]

theorem telegramOf_status : (telegramOf (rorg :: payload ++ [a, b, c, d, st]) opt).status = st := by
  have hlen : (rorg :: payload ++ [a, b, c, d, st]).length - 1 = (rorg :: payload).length + 4 := by simp
  rw [telegramOf, hlen, byteAt_append_add]
  rfl

end

section
variable (data opt : List Byte)

theorem telegramOf_rssiDbm : (telegramOf data opt).rssiDbm = opt[5]?.map Config.rssiInterp :=
  (optField_map Config.rssiInterp 6 opt (byteAt opt 5)).trans (congrArg _ (optField_byteAt opt 5))

theorem telegramOf_destinationId_absent (h : opt.length < 5) : (telegramOf data opt).destinationId = none :=
  optField_absent _ h

theorem telegramOf_destinationId_present (h : 5 ≤ opt.length) :
    (telegramOf data opt).destinationId = some (be32 opt 1) := optField_present _ h

theorem telegramOf_destinationId_cons (x e f g h : Byte) (tl : List Byte) :
    ∃ v, (telegramOf data (x :: e :: f :: g :: h :: tl)).destinationId = some v
      ∧ v.toNat = e.toNat * 2 ^ 24 + f.toNat * 2 ^ 16 + g.toNat * 2 ^ 8 + h.toNat :=
  ⟨_, telegramOf_destinationId_present data _ (by simp), be32_append_toNat [x] e f g h tl⟩

end

/-- Settles O51: the answer to a legal packet is `extractErp1`'s, and each field of the telegram is read by its own
lemma. -/
theorem erp1ExtAnswersAsStated : Obligations.Erp1ExtAnswersAsStated := by
  refine ⟨decode_erp1Ext, ?telegram, fun s => ⟨?otherType, ?short, ?illegal⟩⟩
  case telegram =>
    intro s rorg payload a b c d st opt hpayload hopt hpkt
    have hok : pktOk s.ports.pkt = true := by
      rw [hpkt, pktOk_iff]
      exact ⟨by simp; omega, hopt, rfl⟩
    have hanswer : extractErp1 s.ports.pkt = .telegram (telegramOf (rorg :: payload ++ [a, b, c, d, st]) opt) := by
      rw [hpkt, extractErp1_telegram rfl (by simp [Config.minErp1DataLen])]
    refine ⟨_, hanswer ▸ exec_erp1Ext_legal hok, rfl, telegramOf_payload .., telegramOf_status ..,
      telegramOf_senderId .., optField_byteAt opt 0, optField_byteAt opt 5, optField_byteAt opt 6,
      telegramOf_rssiDbm .., telegramOf_destinationId_absent _ opt, ?_⟩
    rintro x e f g h tl rfl
    exact telegramOf_destinationId_cons _ x e f g h tl
  case otherType =>
    intro hok htype
    rw [exec_erp1Ext_legal hok, extractErp1_otherType htype]
  case short =>
    intro hok htype hlen
    rw [exec_erp1Ext_legal hok, extractErp1_short htype hlen]
  case illegal => exact fun h => exec_erp1Ext_illegal ((pktOk_eq_false_iff _).mpr h)

/-! ### FLD.EXT (42_erp1.md R180, R181, 20_memory.md R43) -/

theorem decode_fldExt : decode (.cmd16 0x2100) = .ok .fldExt := decode_cmd16_eq_ok_iff.mpr rfl

section
variable {s : State}

theorem exec_fldExt_legal (h1 : 1 ≤ s.ports.width.toNat) (h32 : s.ports.width.toNat ≤ 32) :
    exec .fldExt s = .next { s with
      out := .answered (extractField s.ports.payload s.ports.offset.toNat s.ports.width.toNat) } := by
  obtain ⟨-, -, hexec⟩ | ⟨hbad, -⟩ := execFldExt_cases s
  · exact hexec
  · omega

theorem exec_fldExt_illegal (h : s.ports.width.toNat = 0 ∨ 32 < s.ports.width.toNat) :
    exec .fldExt s = .next { s with refused := true, out := .refusal .fieldWidth } := by
  obtain ⟨h1, h32, -⟩ | ⟨-, hexec⟩ := execFldExt_cases s
  · omega
  · exact hexec

end

/-- Bit `j` of the loop's value is the payload bit read `j` turns before the last; above the width there are zeros. -/
theorem fieldValue_testBit (p : List Byte) (off w j : Nat) :
    (fieldValue p off w).testBit j = (decide (j < w) && decide (payloadBit p (off + (w - 1 - j)) = 1)) := by
  induction w generalizing j with
  | zero => simp [fieldValue]
  | succ w ih =>
    have hbit := payloadBit_lt p (off + w)
    rw [fieldValue]
    cases j with
    | zero =>
      rw [Nat.testBit_zero, Nat.mul_add_mod_self_right, Nat.mod_eq_of_lt hbit]
      simp
    | succ j =>
      have hhalf : (fieldValue p off w * 2 + payloadBit p (off + w)) / 2 = fieldValue p off w := by omega
      rw [Nat.testBit_succ, hhalf, ih, show w + 1 - 1 - (j + 1) = w - 1 - j by omega]
      simp

section
variable {p : List Byte} {off w : Nat}

theorem extractField_inside (h : off + w ≤ 8 * p.length) :
    extractField p off w = .field (BitVec.ofNat 32 (fieldValue p off w)) := if_neg h.not_gt

theorem extractField_outside (h : 8 * p.length < off + w) :
    extractField p off w = .err .payloadBitRangeOutOfBounds := if_pos h

/-- Bit `off + k` of the payload stands at place `w - 1 - k` of a field of `w` bits: the most significant first. -/
theorem field_getLsbD {k : Nat} (hw : w ≤ 32) (hin : off + w ≤ 8 * p.length) (hk : k < w) :
    (BitVec.ofNat 32 (fieldValue p off w)).getLsbD (w - 1 - k)
      = (p.getD ((off + k) / 8) 0).getLsbD (7 - (off + k) % 8) := by
  have hbyte : (off + k) / 8 < p.length := by omega
  have hplace : w - 1 - k < w := by omega
  have hbit : decide (payloadBit p (off + k) = 1) = p[(off + k) / 8].getLsbD (7 - (off + k) % 8) :=
    Bool.eq_iff_iff.mpr (decide_eq_true_iff.trans (payloadBit_eq hbyte))
  rw [BitVec.getLsbD_ofNat, fieldValue_testBit, show w - 1 - (w - 1 - k) = k by omega,
    List.getD_eq_getElem _ _ hbyte, hbit, decide_eq_true hplace,
    decide_eq_true (hplace.trans_le hw), Bool.true_and, Bool.true_and]

theorem field_getLsbD_above {j : Nat} (hj : w ≤ j) : (BitVec.ofNat 32 (fieldValue p off w)).getLsbD j = false := by
  rw [BitVec.getLsbD_ofNat, fieldValue_testBit, decide_eq_false hj.not_gt, Bool.false_and, Bool.and_false]

end

/-- Settles O52: inside the payload the answer is the loop's value, whose bits `fieldValue_testBit` gives. -/
theorem fldExtAnswersAsStated : Obligations.FldExtAnswersAsStated := by
  refine ⟨decode_fldExt, fun s => ⟨?inside, ?outside, exec_fldExt_illegal⟩⟩
  case inside =>
    intro h1 h32 hin
    exact ⟨_, extractField_inside hin ▸ exec_fldExt_legal h1 h32, fun _ => field_getLsbD h32 hin,
      fun _ => field_getLsbD_above⟩
  case outside =>
    intro h1 h32 hout
    rw [exec_fldExt_legal h1 h32, extractField_outside hout]

end Sys2Proof.Machine
end

section
/-! PROOFS. The statement on 60_exceptions.md: which commands are refused, for which reasons, and what a refusal changes
(R207). -/

namespace Sys2Proof.Machine

/-! ### The refusals of R207 -/

/-- Only ERP1.EXT and FLD.EXT refuse, each exactly on its illegal operand and for its own reason. -/
theorem exec_refusal_cases {i : Instr} {s t : State} (h : exec i s = .next t) :
    (i = .erp1Ext ∧ pktOk s.ports.pkt = false ∧ t = { s with refused := true, out := .refusal .operandInvariant })
      ∨ (i = .fldExt ∧ (s.ports.width.toNat = 0 ∨ 32 < s.ports.width.toNat)
        ∧ t = { s with refused := true, out := .refusal .fieldWidth })
      ∨ ((∀ reason, t.out ≠ .refusal reason) ∧ ¬ (i = .erp1Ext ∧ pktOk s.ports.pkt = false)
        ∧ ¬ (i = .fldExt ∧ (s.ports.width.toNat = 0 ∨ 32 < s.ports.width.toNat))) := by
  cases i with
  | erp1Ext =>
    obtain ⟨hok, hexec⟩ | ⟨hbad, hexec⟩ := execErp1Ext_cases s <;> cases h.symm.trans hexec
    · exact .inr (.inr ⟨nofun, by simp [hok], by simp⟩)
    · exact .inl ⟨rfl, hbad, rfl⟩
  | fldExt =>
    obtain ⟨h1, h32, hexec⟩ | ⟨hbad, hexec⟩ := execFldExt_cases s <;> cases h.symm.trans hexec
    · exact .inr (.inr ⟨nofun, by simp, by omega⟩)
    · exact .inr (.inl ⟨rfl, hbad, rfl⟩)
  | frmPush b =>
    obtain ⟨-, hexec⟩ | ⟨-, -, hexec⟩ := execFrmPush_cases b s <;> cases h.symm.trans hexec <;>
      exact .inr (.inr ⟨nofun, by simp, by simp⟩)
  | frmPop =>
    obtain ⟨-, hexec⟩ | ⟨_, _, -, hexec⟩ := execFrmPop_cases s <;> cases h.symm.trans hexec <;>
      exact .inr (.inr ⟨nofun, by simp, by simp⟩)
  | crcInit | crcUpd | crcRd | frmStat | frmDec | reset | ptypeRadioErp1 | ptypeResponse | ptypeUnsupported =>
    cases h
    exact .inr (.inr ⟨nofun, by simp, by simp⟩)

/-- Settles O10: a reserved word by `step_reserved`, a word with a meaning by the refusals of `exec`. -/
theorem refusalsAreTheListedOnes : Obligations.RefusalsAreTheListedOnes := by
  intro s t w ports rest hin hstep
  rw [← pktOk_eq_false_iff]
  cases hd : decode (.cmd16 w) with
  | error e =>
    cases hstep.symm.trans (step_reserved hin hd)
    simp
  | ok i =>
    rw [step_command hin hd] at hstep
    simp only [Except.ok.injEq]
    obtain ⟨rfl, hbad, rfl⟩ | ⟨rfl, hbad, rfl⟩ | ⟨hout, hpkt, hwidth⟩ := exec_refusal_cases hstep
    · simp [hbad]
    · simpa using hbad
    · exact ⟨iff_of_false (hout _) fun hres => hres i rfl, iff_of_false (hout _) hpkt, iff_of_false (hout _) hwidth,
        fun reason hr => absurd hr (hout reason)⟩

end Sys2Proof.Machine
end

section
/-! PROOFS. The statement on 70_reset_and_hazards.md: RESET's assignment and its idempotence (R230). -/

namespace Sys2Proof.Machine

theorem decode_reset : decode (.cmd16 0xFF00) = .ok .reset := decode_cmd16_eq_ok_iff.mpr rfl

/-- The values RESET writes do not depend on those it finds. -/
theorem exec_reset_idempotent {s t : State} (h : exec .reset s = .next t) : exec .reset t = .next t := by
  rw [exec_reset] at h
  cases h
  rw [exec_reset]
  rfl

/-- Settles O15: RESET's one outcome (`exec_reset`) written out, its idempotence, and the values at launch. -/
theorem resetClearsTheBlock : Obligations.ResetClearsTheBlock :=
  ⟨decode_reset, exec_reset, fun _ _ => exec_reset_idempotent,
    fun depth => ⟨launch_crc depth, launch_fbuf depth, launch_rq depth, launch_refused depth⟩⟩

end Sys2Proof.Machine
end

section
/-! PROOFS. The statements on 30_encoding.md and 00_scope.md: decoding is the inverse of encoding (R60, R62, R74),
sample words, and the step on a word with a meaning (00_scope.md §2). -/

namespace Sys2Proof

/-! ### Decoding and encoding agree (30_encoding.md R60, R62, R74) -/

/-- The one check of well-formedness concerns a packet-type row, so a term encoded as a command word passes it. -/
theorem wellFormed_of_encode_cmd16 {i : Instr} {w : CmdWord} (h : encode i = .cmd16 w) : WellFormed i := by
  cases i with
  | ptypeUnsupported c => cases h
  | _ => rfl

theorem wellFormed_ptypeUnsupported_iff {c : Byte} : WellFormed (.ptypeUnsupported c) ↔ c ≠ 0x01 ∧ c ≠ 0x02 := by
  simp [WellFormed, wellFormed]

/-- A packet-type byte is read as the one well-formed term it encodes: the last row takes no supported code. -/
theorem decodePtype_eq_iff {b : Byte} {i : Instr} : decodePtype b = i ↔ WellFormed i ∧ encode i = .ptype8 b := by
  constructor
  · rintro rfl
    unfold decodePtype
    split_ifs with hradio hresp
    · exact ⟨rfl, by rw [hradio, encode]⟩
    · exact ⟨rfl, by rw [hresp, encode]⟩
    · exact ⟨wellFormed_ptypeUnsupported_iff.mpr ⟨hradio, hresp⟩, rfl⟩
  · rintro ⟨hwf, henc⟩
    cases i with
    | ptypeRadioErp1 | ptypeResponse =>
      cases henc
      rfl
    | ptypeUnsupported c =>
      cases henc
      obtain ⟨hradio, hresp⟩ := wellFormed_ptypeUnsupported_iff.mp hwf
      rw [decodePtype, if_neg hradio, if_neg hresp]
    | _ => cases henc

/-- Settles O1: a command word by `decode_cmd16_eq_ok_iff`, a packet-type byte by `decodePtype_eq_iff`. -/
theorem decodeAndEncodeAgree : Obligations.DecodeAndEncodeAgree := by
  intro c i
  cases c with
  | cmd16 w => exact decode_cmd16_eq_ok_iff.trans ⟨fun h => ⟨wellFormed_of_encode_cmd16 h, h⟩, And.right⟩
  | ptype8 b => rw [decode, Except.ok.injEq, decodePtype_eq_iff]

/-- Settles O4: a word with a meaning by its row, the two reserved words by evaluation. -/
theorem sampleWordsDecodeAsListed : Obligations.SampleWordsDecodeAsListed :=
  ⟨Machine.decode_crcInit, decode_crcUpd 0x7A, decode_frmPush 0xFF, Machine.decode_frmDec, Machine.decode_erp1Ext,
    Machine.decode_fldExt, Machine.decode_reset, rfl, rfl, rfl, rfl⟩

/-- A table word has a meaning when it is a code word that has one. -/
theorem tableCodeWord_of_decodeTableWord {nbits w : Nat} {i : Instr} (h : decodeTableWord nbits w = some i) :
    ∃ c, tableCodeWord nbits w = some c ∧ decode c = .ok i := by
  unfold decodeTableWord at h
  split at h
  · cases h
  · next c hc =>
    split at h
    · next hd =>
      cases h
      exact ⟨c, hc, hd⟩
    · cases h

end Sys2Proof

namespace Sys2Proof.Machine

/-! ### The step on a word with a meaning (00_scope.md §2) -/

theorem withFetchWord_of_codeWord {nbits w : Nat} {c : CodeWord} (h : tableCodeWord nbits w = some c) (s : State) :
    s.withFetchWord nbits w = { s with inbox := inputOf c s.ports :: s.inbox } := by
  rw [State.withFetchWord, h]

/-- A code word placed before a state's own inbox, with the ports as they stand, runs on that state. -/
theorem step_inputOf {c : CodeWord} {i : Instr} (hd : decode c = .ok i) (s : State) :
    step { s with inbox := inputOf c s.ports :: s.inbox } = exec i s := by
  cases c with
  | cmd16 w => exact step_placed s s.ports hd
  | ptype8 b =>
    cases hd
    exact step_ptype rfl

/-- Settles O5: the step by the head of the inbox, and a placed word by `step_inputOf`. -/
theorem stepRunsTheDecodedInstruction : Obligations.StepRunsTheDecodedInstruction := by
  refine ⟨fun s w ports rest i => step_command, fun s b rest i hin hd => ?_, fun s nbits w i h => ?_⟩
  · cases hd
    exact step_ptype hin
  · obtain ⟨c, hc, hd⟩ := tableCodeWord_of_decodeTableWord h
    rw [withFetchWord_of_codeWord hc, step_inputOf hd]

end Sys2Proof.Machine
end

section
/-! PROOFS. The statements on what every step keeps: the invariant (10_state.md R24, 70_reset_and_hazards.md R241), the
single input taken (20_memory.md R50), the writers of each state element (10_state.md §2 to §4), and the refusal mark
(R28). -/

namespace Sys2Proof.Machine

/-! ### The invariant (70_reset_and_hazards.md R241, 10_state.md R24) -/

/-- The invariant reads the buffer, the queue and the depth alone. -/
theorem stateOk_congr {s t : State} (hbuf : t.fbuf = s.fbuf) (hrq : t.rq = s.rq) (hdepth : t.rqDepth = s.rqDepth)
    (h : StateOk s) : StateOk t := by
  rw [stateOk_iff] at h ⊢
  rwa [hbuf, hrq, hdepth]

theorem queueWithin_of_hasRoom {d : QueueDepth} {q : List FrameResult} (h : hasRoom d q = true) :
    queueWithin d q = true := by
  simpa using queueWithin_emit none h

theorem queueWithin_nil (d : QueueDepth) : queueWithin d [] = true := by
  cases d <;> simp [queueWithin]

/-- A cleared block meets the invariant, whatever legal depth it was built with. -/
theorem stateOk_of_cleared {s : State} (hbuf : s.fbuf = []) (hrq : s.rq = []) (hdepth : queueDepthOk s.rqDepth = true) :
    StateOk s := by
  rw [stateOk_iff, hbuf, hrq]
  exact ⟨Nat.zero_le _, queueWithin_nil _, nofun, hdepth⟩

/-- What the engine emits is an entry the queue may hold: a packet it accepts is within the header's lengths. -/
theorem resultOk_of_emission {b : List Byte} {c : DrainCase} {r : FrameResult} (hcase : drainCase b = some c)
    (hemit : drainEmission c b = some r) : resultOk r = true := by
  obtain ⟨-, hfacts⟩ := drainCase_spec hcase
  cases c with
  | skip => cases hemit
  | badHeader | badData =>
    cases hemit
    rfl
  | packet =>
    cases hemit
    obtain ⟨hsync, h6, hhdr, hlen, hbody⟩ := hfacts
    exact (frame_eq_ser hsync h6 hhdr hlen hbody).2

theorem engineTurn_keeps_stateOk {s : State} (h : StateOk s) : StateOk (engineTurn s) := by
  obtain ⟨-, ht⟩ | ⟨b, q, hstep, ht⟩ := engineTurn_cases s <;> rw [ht]
  · exact h
  · obtain ⟨hbuf, hq, hres, hdepth⟩ := (stateOk_iff s).mp h
    obtain ⟨c, hcase, -, rfl, hroom⟩ := drainStep_spec hstep
    refine (stateOk_iff _).mpr ⟨(drainStep_shrinks hstep).le.trans hbuf, ?_, ?_, hdepth⟩ <;> dsimp only
    · cases hemit : drainEmission c s.fbuf with
      | none => simpa using hq
      | some r => exact queueWithin_emit (some r) (hroom (by simp [hemit]))
    · intro r hr
      rcases List.mem_append.mp hr with hold | hnew
      · exact hres r hold
      · exact resultOk_of_emission hcase (Option.mem_toList.mp hnew)

/-- What a meaning does to the framer: nothing, an accepted push, a pop, or RESET's clearing. -/
theorem exec_framer_cases {i : Instr} {s t : State} (h : exec i s = .next t) :
    (t.fbuf = s.fbuf ∧ t.rq = s.rq)
      ∨ (∃ b, i = .frmPush b ∧ s.fbuf.length < Config.bufCap ∧ t.fbuf = s.fbuf ++ [b] ∧ t.rq = s.rq)
      ∨ (∃ r, i = .frmPop ∧ t.fbuf = s.fbuf ∧ s.rq = r :: t.rq)
      ∨ (i = .reset ∧ t.fbuf = [] ∧ t.rq = []) := by
  by_cases hpush : ∃ b, i = .frmPush b
  · obtain ⟨b, rfl⟩ := hpush
    obtain ⟨-, hexec⟩ | ⟨-, hlen, hexec⟩ := execFrmPush_cases b s <;> cases h.symm.trans hexec
    · exact .inl ⟨rfl, rfl⟩
    · exact .inr (.inl ⟨b, rfl, hlen, rfl, rfl⟩)
  by_cases hpop : i = .frmPop
  · subst hpop
    obtain ⟨-, hexec⟩ | ⟨r, q, hrq, hexec⟩ := execFrmPop_cases s <;> cases h.symm.trans hexec
    · exact .inl ⟨rfl, rfl⟩
    · exact .inr (.inr (.inl ⟨r, rfl, rfl, hrq⟩))
  by_cases hreset : i = .reset
  · subst hreset
    cases h.symm.trans (exec_reset s)
    exact .inr (.inr (.inr ⟨rfl, rfl, rfl⟩))
  · obtain ⟨u, hu, hkeeps⟩ := exec_keeps_framer (not_exists.mp hpush) hpop hreset s
    cases h.symm.trans hu
    exact .inl hkeeps

/-- A push is accepted below capacity only, and a pop shortens the queue. -/
theorem exec_keeps_stateOk {i : Instr} {s t : State} (h : StateOk s) (hexec : exec i s = .next t) : StateOk t := by
  obtain ⟨hlen, hq, hres, hdepth⟩ := (stateOk_iff s).mp h
  obtain ⟨u, hu, -, -, hd⟩ := exec_next i s
  cases hexec.symm.trans hu
  obtain ⟨hbuf, hrq⟩ | ⟨b, -, hcap, hbuf, hrq⟩ | ⟨r, -, hbuf, hrq⟩ | ⟨-, hbuf, hrq⟩ := exec_framer_cases hexec
  · exact stateOk_congr hbuf hrq hd h
  · refine (stateOk_iff t).mpr ⟨?_, by rwa [hrq, hd], by rwa [hrq], by rwa [hd]⟩
    rw [hbuf, List.length_append]
    exact Nat.succ_le_of_lt hcap
  · rw [hrq] at hq hres
    rw [stateOk_iff, hbuf, hd]
    exact ⟨hlen, queueWithin_of_hasRoom (hasRoom_pop hq), fun x hx => hres x (List.mem_cons_of_mem r hx), hdepth⟩
  · exact stateOk_of_cleared hbuf hrq (hd ▸ hdepth)

/-- Settles O17: an engine turn, a clearing, a meaning, or a refusal, which touches nothing the invariant reads. -/
theorem invariantKeptByEveryStep : Obligations.InvariantKeptByEveryStep := by
  intro s t h hstep
  obtain ⟨-, hs⟩ | ⟨-, hs⟩ | ⟨i, ports, -, -, hs⟩ | ⟨w, ports, rest, e, -, -, hs⟩ := step_shape s
  · cases hstep.symm.trans hs
    exact engineTurn_keeps_stateOk (stateOk_congr rfl rfl rfl h)
  · cases hstep.symm.trans hs
    obtain ⟨-, -, -, hdepth⟩ := (stateOk_iff s).mp h
    exact stateOk_of_cleared rfl rfl hdepth
  · refine exec_keeps_stateOk ?_ (hs.symm.trans hstep)
    exact stateOk_congr rfl rfl rfl h
  · cases hstep.symm.trans hs
    exact stateOk_congr rfl rfl rfl h

/-- Settles O18. -/
theorem invariantHoldsAtLaunch : Obligations.InvariantHoldsAtLaunch := fun _ hdepth => stateOk_of_cleared rfl rfl hdepth

/-! ### What a step takes (60_exceptions.md R200, 20_memory.md R50) -/

/-- Settles O6: the first three parts of `step_next`. -/
theorem everyStepGoesOnAndTakesOneInput : Obligations.EveryStepGoesOnAndTakesOneInput := by
  intro s
  obtain ⟨t, hstep, hin, hdepth, -⟩ := step_next s
  exact ⟨t, hstep, hin, hdepth⟩

/-! ### The refusal mark (10_state.md R28, 60_exceptions.md R207) -/

/-- A meaning either refuses, setting the mark and nothing else, or leaves the mark alone. -/
theorem exec_refuses_or_keeps_mark {i : Instr} {s t : State} (h : exec i s = .next t) :
    (∃ reason, t = { s with refused := true, out := .refusal reason })
      ∨ (t.refused = s.refused ∧ ∀ reason, t.out ≠ .refusal reason) := by
  obtain ⟨-, -, ht⟩ | ⟨-, -, ht⟩ | ⟨hout, hpkt, hwidth⟩ := exec_refusal_cases h
  · exact .inl ⟨_, ht⟩
  · exact .inl ⟨_, ht⟩
  refine .inr ⟨?_, hout⟩
  cases i with
  | erp1Ext =>
    obtain ⟨-, hexec⟩ | ⟨hbad, -⟩ := execErp1Ext_cases s
    · cases h.symm.trans hexec
      rfl
    · exact absurd ⟨rfl, hbad⟩ hpkt
  | fldExt =>
    obtain ⟨-, -, hexec⟩ | ⟨hbad, -⟩ := execFldExt_cases s
    · cases h.symm.trans hexec
      rfl
    · exact absurd ⟨rfl, hbad⟩ hwidth
  | frmPush b => obtain ⟨-, hexec⟩ | ⟨-, -, hexec⟩ := execFrmPush_cases b s <;> cases h.symm.trans hexec <;> rfl
  | frmPop => obtain ⟨-, hexec⟩ | ⟨_, _, -, hexec⟩ := execFrmPop_cases s <;> cases h.symm.trans hexec <;> rfl
  | _ =>
    cases h
    rfl

/-- What a refusal leaves of the block: everything but the mark. -/
structure Refused (s t : State) : Prop where
  shown : ∃ reason, t.out = .refusal reason
  mark : t.refused = true
  crc : t.crc = s.crc
  fbuf : t.fbuf = s.fbuf
  rq : t.rq = s.rq
  depth : t.rqDepth = s.rqDepth

/-- Every step either refuses or leaves the mark alone and shows no refusal. -/
theorem step_refuses_or_keeps_mark {s t : State} (h : step s = .next t) :
    Refused s t ∨ (t.refused = s.refused ∧ ∀ reason, t.out ≠ .refusal reason) := by
  obtain ⟨-, hs⟩ | ⟨-, hs⟩ | ⟨i, ports, -, -, hs⟩ | ⟨w, ports, rest, e, -, -, hs⟩ := step_shape s
  · cases h.symm.trans hs
    exact .inr ⟨engineTurn_refused _, by simp⟩
  · cases h.symm.trans hs
    exact .inr ⟨powerOnReset_refused _, by simp⟩
  · obtain ⟨reason, rfl⟩ | hkeeps := exec_refuses_or_keeps_mark (hs.symm.trans h)
    · exact .inl ⟨⟨reason, rfl⟩, rfl, rfl, rfl, rfl, rfl⟩
    · exact .inr hkeeps
  · cases h.symm.trans hs
    exact .inl ⟨⟨.reservedCommand, rfl⟩, rfl, rfl, rfl, rfl, rfl⟩

theorem step_refused_iff {s t : State} (h : step s = .next t) :
    t.refused = true ↔ s.refused = true ∨ ∃ reason, t.out = .refusal reason := by
  obtain href | ⟨hmark, hout⟩ := step_refuses_or_keeps_mark h
  · exact iff_of_true href.mark (.inr href.shown)
  · rw [hmark, or_iff_left (not_exists.mpr hout)]

/-- Settles O8: the two kinds of step of `step_refuses_or_keeps_mark`. -/
theorem refusalMarkIsSticky : Obligations.RefusalMarkIsSticky := by
  intro s t h
  refine ⟨step_refused_iff h, fun hshown => ?_⟩
  obtain href | ⟨-, hout⟩ := step_refuses_or_keeps_mark h
  · exact ⟨href.crc, href.fbuf, href.rq, href.depth⟩
  · exact absurd hshown (not_exists.mpr hout)

theorem transcript_succ {s t : State} (h : step s = .next t) (n : Nat) :
    transcript (n + 1) s = t.out :: transcript n t := by
  rw [transcript, h]

/-- Settles O9, by induction on the number of steps, the mark of each step told by `step_refused_iff`. -/
theorem evidenceMeansNothingWasRefused : Obligations.EvidenceMeansNothingWasRefused := by
  intro n
  induction n with
  | zero =>
    intro s t hrun
    cases hrun
    simp [transcript]
  | succ n ih =>
    intro s t hrun
    obtain ⟨u, hstep, -⟩ := step_next s
    rw [runSteps_succ hstep] at hrun
    have hmark : Evidence u ↔ Evidence s ∧ ∀ reason, Output.refusal reason ≠ u.out := by
      rw [Evidence, ← Bool.not_eq_true, step_refused_iff hstep, not_or, Bool.not_eq_true, not_exists]
      simp only [Evidence, ne_eq, eq_comm]
    rw [ih u t hrun, hmark, transcript_succ hstep]
    simp only [List.mem_cons, not_or, forall_and, and_assoc, ne_eq]

/-! ### The writers of each state element (10_state.md R21, R24, R28, 20_memory.md R40) -/

/-- The writers of `crc`. -/
theorem step_crc_writers {s t : State} (h : step s = .next t) (hne : t.crc ≠ s.crc) :
    nextInstr s = some .crcInit ∨ (∃ b, nextInstr s = some (.crcUpd b)) ∨ nextInstr s = some .reset
      ∨ powerOnNext s = true := by
  obtain ⟨-, hs⟩ | ⟨hpow, -⟩ | ⟨i, ports, hnext, -, hs⟩ | ⟨w, ports, rest, e, -, -, hs⟩ := step_shape s
  · cases h.symm.trans hs
    exact absurd (engineTurn_crc _) hne
  · exact .inr (.inr (.inr hpow))
  · by_contra hwriter
    simp only [hnext, Option.some.injEq, not_or, not_exists] at hwriter
    obtain ⟨hinit, hupd, hreset, -⟩ := hwriter
    obtain ⟨u, hu, hcrc⟩ := exec_keeps_crc hinit hupd hreset { s with inbox := s.inbox.tail, ports := ports }
    cases h.symm.trans (hs.trans hu)
    exact hne hcrc
  · cases h.symm.trans hs
    exact absurd rfl hne

/-- The engine and the clearings may write both parts of the framer; a push keeps the queue, a pop keeps the buffer, and
every other step keeps both. -/
theorem step_framer_writers {s t : State} (h : step s = .next t) :
    engineNext s = true ∨ nextInstr s = some .reset ∨ powerOnNext s = true ∨ (t.fbuf = s.fbuf ∧ t.rq = s.rq)
      ∨ ((∃ b, nextInstr s = some (.frmPush b)) ∧ t.rq = s.rq) ∨ (nextInstr s = some .frmPop ∧ t.fbuf = s.fbuf) := by
  obtain ⟨heng, -⟩ | ⟨hpow, -⟩ | ⟨i, ports, hnext, -, hs⟩ | ⟨w, ports, rest, e, -, -, hs⟩ := step_shape s
  · exact .inl heng
  · exact .inr (.inr (.inl hpow))
  · obtain hkeeps | ⟨b, rfl, -, -, hrq⟩ | ⟨r, rfl, hbuf, -⟩ | ⟨rfl, -⟩ := exec_framer_cases (hs.symm.trans h)
    · exact .inr (.inr (.inr (.inl hkeeps)))
    · exact .inr (.inr (.inr (.inr (.inl ⟨⟨b, hnext⟩, hrq⟩))))
    · exact .inr (.inr (.inr (.inr (.inr ⟨hnext, hbuf⟩))))
    · exact .inr (.inl hnext)
  · cases h.symm.trans hs
    exact .inr (.inr (.inr (.inl ⟨rfl, rfl⟩)))

/-- Settles O7: `crc` by `step_crc_writers`, the framer by `step_framer_writers`, the mark by its two kinds of step. -/
theorem stateElementsHaveOnlyTheirWriters : Obligations.StateElementsHaveOnlyTheirWriters := by
  intro s t h
  refine ⟨step_crc_writers h, fun hne => ?fbuf, fun hne => ?rq, fun hne => ?mark⟩
  case fbuf =>
    obtain heng | hreset | hpow | ⟨hbuf, -⟩ | ⟨hpush, -⟩ | ⟨-, hbuf⟩ := step_framer_writers h
    · exact .inr (.inl heng)
    · exact .inr (.inr (.inl hreset))
    · exact .inr (.inr (.inr hpow))
    · exact absurd hbuf hne
    · exact .inl hpush
    · exact absurd hbuf hne
  case rq =>
    obtain heng | hreset | hpow | ⟨-, hrq⟩ | ⟨-, hrq⟩ | ⟨hpop, -⟩ := step_framer_writers h
    · exact .inr (.inl heng)
    · exact .inr (.inr (.inl hreset))
    · exact .inr (.inr (.inr hpow))
    · exact absurd hrq hne
    · exact absurd hrq hne
    · exact .inl hpop
  case mark =>
    obtain href | ⟨hmark, -⟩ := step_refuses_or_keeps_mark h
    · exact href.shown
    · exact absurd hmark hne

end Sys2Proof.Machine
end

section
/-! PROOFS. The statements on 60_exceptions.md and on single commands: error codes and who answers them (R201), the
read-only commands (20_memory.md R47), power-on (70_reset_and_hazards.md R230), the packet-type rows (41_framer.md
R120), and the fields of a payload (42_erp1.md R180). -/

namespace Sys2Proof.Machine

/-! ### Error codes and the commands that answer them (60_exceptions.md R201) -/

/-- Settles O12. -/
theorem errorCodeValues : Obligations.ErrorCodeValues := ⟨rfl, rfl, rfl, rfl, rfl, rfl, rfl, rfl⟩

theorem resultResponse_eq_err {r : FrameResult} {e : ErrorCode} (h : resultResponse r = .err e) : r = .err e := by
  cases r with
  | ok p => cases h
  | err e' =>
    cases h
    rfl

theorem resultOk_err_iff (e : ErrorCode) :
    resultOk (.err e) = true ↔ e = .headerCrcMismatch ∨ e = .dataCrcMismatch := by
  simp [resultOk]

/-- Which instruction an answered error comes from, when the queue holds only what it may. -/
theorem exec_error_cases {i : Instr} {s t : State} {e : ErrorCode} (hq : ∀ r ∈ s.rq, resultOk r = true)
    (h : exec i s = .next t) (hout : t.out = .answered (.err e)) :
    (i = .frmDec ∧ (e = .truncatedFrame ∨ e = .syncByteMismatch ∨ e = .headerCrcMismatch ∨ e = .dataCrcMismatch))
      ∨ (i = .frmPop ∧ (e = .headerCrcMismatch ∨ e = .dataCrcMismatch))
      ∨ (i = .erp1Ext ∧ (e = .wrongPacketType ∨ e = .payloadTooShort))
      ∨ (i = .fldExt ∧ e = .payloadBitRangeOutOfBounds) := by
  cases i with
  | frmDec =>
    cases h.symm.trans (exec_frmDec s)
    injection hout with hresp
    exact .inl ⟨rfl, decodeFrame_code _ e (resultResponse_eq_err hresp)⟩
  | frmPop =>
    obtain ⟨-, hexec⟩ | ⟨r, q, hrq, hexec⟩ := execFrmPop_cases s <;> cases h.symm.trans hexec
    · cases hout
    · injection hout with hresp
      cases resultResponse_eq_err hresp
      exact .inr (.inl ⟨rfl, (resultOk_err_iff e).mp (hq _ (by simp [hrq]))⟩)
  | erp1Ext =>
    obtain ⟨-, hexec⟩ | ⟨-, hexec⟩ := execErp1Ext_cases s <;> cases h.symm.trans hexec
    · injection hout with hresp
      exact .inr (.inr (.inl ⟨rfl, extractErp1_code _ e hresp⟩))
    · cases hout
  | fldExt =>
    obtain ⟨-, -, hexec⟩ | ⟨-, hexec⟩ := execFldExt_cases s <;> cases h.symm.trans hexec
    · injection hout with hresp
      exact .inr (.inr (.inr ⟨rfl, extractField_code _ _ _ e hresp⟩))
    · cases hout
  | frmPush b => obtain ⟨-, hexec⟩ | ⟨-, -, hexec⟩ := execFrmPush_cases b s <;> cases h.symm.trans hexec <;> cases hout
  | crcInit | crcUpd | crcRd | frmStat | reset | ptypeRadioErp1 | ptypeResponse | ptypeUnsupported =>
    cases h
    cases hout

/-- Settles O11: a turn of the engine, a power-on and a refusal answer nothing; a meaning by `exec_error_cases`. -/
theorem errorsComeOnlyFromTheirCommands : Obligations.ErrorsComeOnlyFromTheirCommands := by
  intro s t e hok h hout
  obtain ⟨-, hs⟩ | ⟨-, hs⟩ | ⟨i, ports, hnext, -, hs⟩ | ⟨w, ports, rest, e', -, -, hs⟩ := step_shape s
  · cases h.symm.trans hs
    cases (engineTurn_out _).symm.trans hout
  · cases h.symm.trans hs
    cases hout
  · obtain ⟨-, -, hq, -⟩ := (stateOk_iff s).mp hok
    rw [hnext]
    obtain ⟨rfl, rfl | rfl | rfl | rfl⟩ | ⟨rfl, rfl | rfl⟩ | ⟨rfl, rfl | rfl⟩ | ⟨rfl, rfl⟩ :=
      exec_error_cases (s := { s with inbox := s.inbox.tail, ports := ports }) hq (hs.symm.trans h) hout <;> simp
  · cases h.symm.trans hs
    cases hout

/-! ### The read-only commands (20_memory.md R47) -/

/-- Settles O13: each command's one outcome on legal operands. -/
theorem readOnlyCommandsChangeNothing : Obligations.ReadOnlyCommandsChangeNothing := by
  rintro s i (rfl | rfl | rfl | ⟨rfl, hpkt⟩ | ⟨rfl, h1, h32⟩)
  · exact ⟨_, exec_crcRd s⟩
  · exact ⟨_, exec_frmStat s⟩
  · exact ⟨_, exec_frmDec s⟩
  · exact ⟨_, exec_erp1Ext_legal hpkt⟩
  · exact ⟨_, exec_fldExt_legal h1 h32⟩

/-! ### Power-on (70_reset_and_hazards.md R230, 60_exceptions.md R217) -/

/-- Settles O16. -/
theorem powerOnMakesResetsAssignment : Obligations.PowerOnMakesResetsAssignment := fun _ _ hin => step_powerOn hin

/-! ### The packet-type rows (41_framer.md R120) -/

/-- Settles O20: the rows of the supported codes by evaluation, the catch-all row by its class. -/
theorem packetTypeRowsShowTheClass : Obligations.PacketTypeRowsShowTheClass := by
  refine fun s => ⟨rfl, rfl, fun c hradio hresp => ?_⟩
  rw [← classify_unsupported hradio hresp]
  rfl

/-! ### The fields of a payload (42_erp1.md R180, 20_memory.md R43) -/

theorem fieldValue_add (p : List Byte) (off m n : Nat) :
    fieldValue p off (m + n) = fieldValue p off m * 2 ^ n + fieldValue p (off + m) n := by
  induction n with
  | zero => simp [fieldValue]
  | succ n ih =>
    rw [← Nat.add_assoc, fieldValue, ih, fieldValue, Nat.add_assoc off m n, pow_succ]
    ring

theorem fieldValue_lt (p : List Byte) (off n : Nat) : fieldValue p off n < 2 ^ n := by
  induction n with
  | zero => simp [fieldValue]
  | succ n ih =>
    have hbit := payloadBit_lt p (off + n)
    rw [fieldValue, pow_succ]
    omega

/-- Settles O53. -/
theorem fieldsConcatenate : Obligations.FieldsConcatenate := fun p off m n =>
  ⟨fieldValue_add p off m n, fieldValue_lt p off n⟩

end Sys2Proof.Machine
end

section
/-! PROOFS. The statements on 40_crc8.md §1: the two forms of CRC8 (R101), a changed byte, and check values (R108). -/

namespace Sys2Proof.Machine

/-- Settles O24: byte by byte the table's entry is the loop's result (`crcAbsorb_eq_serial`). -/
theorem tableFormIsBitSerialForm : Obligations.TableFormIsBitSerialForm := by
  constructor
  · intro s
    have hbyte : crcAbsorb = crcSerialByte := funext₂ crcAbsorb_eq_serial
    rw [crc8, crc8From, crc8Serial, hbyte]
  · intro i
    simpa [crcAbsorb_eq_serial] using crcTable_getElem?_xor 0x00 i

/-- Settles O26: absorbing is injective in the byte, and the fold over the suffix in its starting value. -/
theorem crcSeesEveryChangedByte : Obligations.CrcSeesEveryChangedByte := by
  intro s t x y hne h
  rw [crc8_append, crc8_append, crc8From_cons, crc8From_cons] at h
  exact hne (crcAbsorb_right_injective (crc8From_injective h))

/-- Settles O27. -/
theorem crcCheckValues : Obligations.CrcCheckValues := by
  refine ⟨?_, ?_, ?_, ?_⟩ <;> decide +kernel

end Sys2Proof.Machine
end

section
/-! PROOFS. The statements on the drain engine of 41_framer.md §3: the queue's room (R142), the rule's case (R141,
R142), what a turn removes (60_exceptions.md R202, R203), and packets no turn loses (R155). -/

namespace Sys2Proof.Machine

/-! ### Room in the queue (41_framer.md R142, 10_state.md R29) -/

theorem hasRoom_bounded_iff (n : Nat) (q : List FrameResult) : hasRoom (.bounded n) q = true ↔ q.length < n :=
  decide_eq_true_iff

/-- Settles O31. -/
theorem queueRoomIsBelowDepth : Obligations.QueueRoomIsBelowDepth := fun n q =>
  ⟨rfl, rfl, hasRoom_bounded_iff n q, (rqFull_iff _ q).trans (by rw [QueueDepth.bounded.injEq, eq_comm])⟩

/-! ### The rule's case (41_framer.md R141, R142) -/

/-- With an unbounded queue a step is enabled exactly when a case applies. -/
theorem drainStep_unbounded_iff (b : List Byte) (q : List FrameResult) :
    (∃ x, drainStep .unbounded b q = some x) ↔ ∃ c, drainCase b = some c := by
  constructor
  · rintro ⟨⟨b', q'⟩, h⟩
    obtain ⟨c, hcase, -⟩ := drainStep_spec h
    exact ⟨c, hcase⟩
  · rintro ⟨c, hcase⟩
    exact ⟨_, drainStep_of_case q hcase⟩

/-- Settles O32. -/
theorem needsWorkIsHavingACase : Obligations.NeedsWorkIsHavingACase := fun b q =>
  ⟨needsWork_iff b, (needsWork_iff b).trans (drainStep_unbounded_iff b q).symm⟩

/-- A case that emits `r` and leaves `rest`, on a queue with room and on a full one (41_framer.md R142). -/
theorem engineTurn_emits {s : State} {c : DrainCase} {r : FrameResult} {rest : List Byte}
    (hcase : drainCase s.fbuf = some c) (hemit : drainEmission c s.fbuf = some r)
    (hrest : s.fbuf.drop (drainRemoves c s.fbuf) = rest) :
    (hasRoom s.rqDepth s.rq = true → (engineTurn s).fbuf = rest ∧ (engineTurn s).rq = s.rq ++ [r])
      ∧ (hasRoom s.rqDepth s.rq = false → (engineTurn s).fbuf = s.fbuf ∧ (engineTurn s).rq = s.rq) := by
  constructor
  · intro hroom
    rw [engineTurn_takes hcase (.inl hroom), hemit, hrest]
    exact ⟨rfl, rfl⟩
  · intro hfull
    rw [engineTurn_holds hcase hfull hemit]
    exact ⟨rfl, rfl⟩

theorem engineTurn_keeps_idle {s : State} (h : drainCase s.fbuf = none) :
    (engineTurn s).fbuf = s.fbuf ∧ (engineTurn s).rq = s.rq := by
  rw [engineTurn_idle h]
  exact ⟨rfl, rfl⟩

/-- Behind a complete frame stand the bytes that follow its data CRC. -/
theorem drop_frameLen {d1 d0 ol pt hc dc : Byte} {data opt post : List Byte}
    (hd : data.length = d1.toNat * 256 + d0.toNat) (ho : opt.length = ol.toNat) :
    (0x55 :: d1 :: d0 :: ol :: pt :: hc :: (data ++ opt ++ dc :: post)).drop
      (frameLen (0x55 :: d1 :: d0 :: ol :: pt :: hc :: (data ++ opt ++ dc :: post))) = post := by
  rw [frameLen_header, ← hd, ← ho, show 0x55 :: d1 :: d0 :: ol :: pt :: hc :: (data ++ opt ++ dc :: post)
    = (0x55 :: d1 :: d0 :: ol :: pt :: hc :: (data ++ opt ++ [dc])) ++ post by simp]
  refine List.drop_left' ?_
  simp only [List.length_cons, List.length_append, List.length_nil]
  omega

/-- Settles O30: the turn is `engineTurn`; its clauses are the idle buffers, the silent skip, and the emitting cases. -/
theorem engineTurnTakesTheRulesCase : Obligations.EngineTurnTakesTheRulesCase := by
  intro s heng
  refine ⟨_, step_of_engineNext heng, engineTurn_crc _, engineTurn_refused _, engineTurn_ports _, engineTurn_out _,
    ?empty, ?garbage, ?short, ?header⟩
  case empty =>
    intro hbuf
    rw [← hbuf]
    exact engineTurn_keeps_idle (s := { s with inbox := s.inbox.tail }) (by rw [hbuf, drainCase_nil])
  case garbage =>
    intro x tl hbuf hx
    have hcase : drainCase s.fbuf = some .skip := by rw [hbuf, drainCase_garbage tl hx]
    rw [engineTurn_takes (s := { s with inbox := s.inbox.tail }) hcase (.inr rfl)]
    simp [hbuf, drainRemoves, drainEmission]
  case short =>
    intro tl hbuf hshort
    exact engineTurn_keeps_idle (s := { s with inbox := s.inbox.tail }) (by rw [hbuf, drainCase_short hshort])
  case header =>
    intro d1 d0 ol pt hc tl hbuf emits
    refine ⟨fun hhdr => ?_, fun hhdr => ⟨fun hlen => ?_, ?_⟩⟩
    · have hcase : drainCase s.fbuf = some .badHeader := by rw [hbuf, drainCase_badHeader hhdr]
      exact engineTurn_emits (s := { s with inbox := s.inbox.tail }) hcase rfl (by rw [hbuf]; rfl)
    · exact engineTurn_keeps_idle (s := { s with inbox := s.inbox.tail }) (by rw [hbuf, drainCase_incomplete hhdr hlen])
    · rintro data opt dc post rfl hd ho
      have hcase := drainCase_complete (pt := pt) (dc := dc) (post := post) hhdr hd ho
      rw [← hbuf] at hcase
      constructor
      · intro hbody
        rw [if_neg hbody] at hcase
        exact engineTurn_emits (s := { s with inbox := s.inbox.tail }) hcase rfl (by rw [hbuf]; rfl)
      · intro hbody
        rw [if_pos hbody] at hcase
        refine engineTurn_emits (s := { s with inbox := s.inbox.tail }) hcase ?_ ?_
        · rw [hbuf, drainEmission, packetOf_frame 0x55 d1 d0 ol pt hc dc data opt post hd ho]
        · rw [hbuf, drainRemoves, drop_frameLen hd ho]

/-! ### What a turn removes (60_exceptions.md R202, R203) -/

/-- A nonempty buffer is its head byte and the rest. -/
theorem eq_byteAt_cons_drop {b : List Byte} (h : b ≠ []) : b = byteAt b 0 :: b.drop 1 := by
  obtain ⟨x, tl, rfl⟩ := List.exists_cons_of_ne_nil h
  rfl

/-- Settles O44: what each case says of the buffer, and what it removes and emits. -/
theorem nothingIsDroppedSilently : Obligations.NothingIsDroppedSilently := by
  intro s t heng h hne
  cases h.symm.trans (step_of_engineNext heng)
  obtain ⟨-, ht⟩ | ⟨b, q, hstep, ht⟩ := engineTurn_cases { s with inbox := s.inbox.tail } <;> rw [ht] at hne ⊢
  · exact absurd rfl hne
  obtain ⟨c, hcase, rfl, rfl, -⟩ := drainStep_spec hstep
  obtain ⟨hnil, hfacts⟩ := drainCase_spec hcase
  have hcons := eq_byteAt_cons_drop hnil
  cases c with
  | skip => exact .inl ⟨_, hfacts, hcons, List.append_nil _⟩
  | badHeader =>
    obtain ⟨hsync, -⟩ := hfacts
    rw [hsync] at hcons
    exact .inr (.inl ⟨_, .inl rfl, hcons, rfl⟩)
  | badData =>
    obtain ⟨hsync, -⟩ := hfacts
    rw [hsync] at hcons
    exact .inr (.inl ⟨_, .inr rfl, hcons, rfl⟩)
  | packet =>
    obtain ⟨hsync, h6, hhdr, hlen, hbody⟩ := hfacts
    obtain ⟨hser, hok⟩ := frame_eq_ser hsync h6 hhdr hlen hbody
    exact .inr (.inr ⟨_, hok, hser, rfl⟩)

/-! ### No valid packet is lost (41_framer.md R155) -/

/-- No `0x55` in `pre` begins a frame that spans the end of `pre` and is accepted or still incomplete. -/
def Unspanned (pre : List Byte) (p : Esp3Packet) (post : List Byte) : Prop :=
  ∀ k, k < pre.length →
    let b := pre.drop k ++ ser p ++ post
    byteAt b 0 = 0x55 → hdrOK b = true → pre.length - k < frameLen b → frameLen b ≤ b.length ∧ bodyCrcOK b = false

theorem Unspanned.drop {pre : List Byte} {p : Esp3Packet} {post : List Byte} (h : Unspanned pre p post) (n : Nat) :
    Unspanned (pre.drop n) p post := by
  intro k hk
  rw [List.length_drop] at hk
  have := h (n + k) (by omega)
  rwa [← List.drop_drop, ← Nat.sub_sub, ← List.length_drop] at this

/-- While bytes stand before the packet, a case applies, and it removes no byte of the packet. -/
theorem Unspanned.exists_case {pre : List Byte} {p : Esp3Packet} {post : List Byte} (h : Unspanned pre p post)
    (hne : pre ≠ []) :
    ∃ c, drainCase (pre ++ ser p ++ post) = some c ∧ drainRemoves c (pre ++ ser p ++ post) ≤ pre.length := by
  have hpos := List.length_pos_iff.mpr hne
  have hhead := h 0 hpos
  rw [List.drop_zero, Nat.sub_zero] at hhead
  have hlong : pre.length + 7 ≤ (pre ++ ser p ++ post).length := by
    simp only [List.length_append, ser_length]
    omega
  generalize pre ++ ser p ++ post = b at hhead hlong
  cases hcase : drainCase b with
  | none =>
    obtain rfl | ⟨-, -, hshort⟩ | ⟨hsync, -, hhdr, hlen⟩ := drainCase_none hcase
    · exact absurd hlong (by simp)
    · omega
    · obtain ⟨hcomplete, -⟩ := hhead hsync hhdr (by omega)
      omega
  | some c =>
    refine ⟨c, rfl, ?_⟩
    obtain ⟨-, hfacts⟩ := drainCase_spec hcase
    cases c with
    | skip | badHeader | badData => exact hpos
    | packet =>
      obtain ⟨hsync, -, hhdr, -, hbody⟩ := hfacts
      by_contra hspan
      obtain ⟨-, hbad⟩ := hhead hsync hhdr (not_le.mp hspan)
      exact absurd (hbody.symm.trans hbad) Bool.noConfusion

theorem mem_drain_of_mem {b : List Byte} {q : List FrameResult} {r : FrameResult} (h : r ∈ q) : r ∈ (drain b q).2 := by
  rw [drain_queue]
  exact List.mem_append_left _ h

/-- By strong induction on the bytes before the packet: each step removes some, until the packet is at the head. -/
theorem Unspanned.mem_drain {p : Esp3Packet} {post : List Byte} (hp : pktOk p = true) {pre : List Byte}
    (h : Unspanned pre p post) : ∀ q, .ok p ∈ (drain (pre ++ ser p ++ post) q).2 := by
  induction hn : pre.length using Nat.strong_induction_on generalizing pre with
  | _ n ih =>
    intro q
    by_cases hne : pre = []
    · rw [hne, List.nil_append, drain_ser hp]
      exact mem_drain_of_mem (by simp)
    · obtain ⟨c, hcase, hle⟩ := h.exists_case hne
      have hpos := (drainRemoves_bounds hcase).1
      have hdrop : ∀ n ≤ pre.length, (pre ++ ser p ++ post).drop n = pre.drop n ++ ser p ++ post := by
        intro n hle
        rw [List.append_assoc, List.drop_append_of_le_length hle, List.append_assoc]
      rw [drain_case q hcase, hdrop _ hle]
      exact ih _ (by rw [List.length_drop]; omega) (h.drop _) rfl _

/-- Settles O43. -/
theorem noValidPacketIsLost : Obligations.NoValidPacketIsLost := fun _ _ _ hp h => Unspanned.mem_drain hp h []

end Sys2Proof.Machine
end

section
/-! PROOFS. The statements on runs of the drain engine: draining ends (41_framer.md R148, R140, 70_reset_and_hazards.md
R251), what it emits is in stream order (R158), and a push with the engine's turns behind it (R151,
70_reset_and_hazards.md R240, R241, 30_encoding.md R68). -/

namespace Sys2Proof.Machine

/-! ### Turns of the engine with nothing scheduled (41_framer.md R148, R151) -/

/-- Room in the queue for as many results as the buffer has bytes. -/
def RoomForAll (s : State) : Prop := ∀ n, s.rqDepth = .bounded n → s.rq.length + s.fbuf.length ≤ n

theorem RoomForAll.of_unbounded {s : State} (h : s.rqDepth = .unbounded) : RoomForAll s := by
  intro n hn
  cases h.symm.trans hn

theorem RoomForAll.hasRoom {s : State} (h : RoomForAll s) (hne : s.fbuf ≠ []) : hasRoom s.rqDepth s.rq = true := by
  have hpos := List.length_pos_iff.mpr hne
  cases hd : s.rqDepth with
  | unbounded => rfl
  | bounded n =>
    have := h n hd
    exact (hasRoom_bounded_iff n s.rq).mpr (by omega)

theorem emission_length_le (o : Option FrameResult) : o.toList.length ≤ 1 := by
  cases o <;> simp

/-- A step emits at most one result and removes at least one byte. -/
theorem RoomForAll.engineTurn {s : State} (h : RoomForAll s) {c : DrainCase} (hcase : drainCase s.fbuf = some c) :
    RoomForAll (engineTurn s) := by
  intro n hn
  rw [engineTurn_rqDepth] at hn
  have hbound := h n hn
  have hone := emission_length_le (drainEmission c s.fbuf)
  obtain ⟨hpos, hle⟩ := drainRemoves_bounds hcase
  rw [engineTurn_takes hcase (.inl (h.hasRoom (drainCase_spec hcase).1))]
  simp only [List.length_append, List.length_drop]
  omega

/-- With nothing scheduled and room for every result, at most as many turns as the buffer has bytes drain it. -/
theorem runSteps_drains (b : List Byte) : ∀ s : State, s.fbuf = b → s.inbox = [] → RoomForAll s →
    ∃ k t, k ≤ s.fbuf.length ∧ runSteps k s = some t ∧ (t.fbuf, t.rq) = drain s.fbuf s.rq ∧ t.inbox = []
      ∧ t.crc = s.crc := by
  induction b using drain_induction with
  | idle b hcase =>
    rintro s rfl hin -
    exact ⟨0, s, Nat.zero_le _, rfl, (drain_idle s.rq hcase).symm, hin, rfl⟩
  | next b c hcase ih =>
    rintro s rfl hin hroom
    have hturn := engineTurn_takes hcase (.inl (hroom.hasRoom (drainCase_spec hcase).1))
    obtain ⟨hpos, hle⟩ := drainRemoves_bounds hcase
    obtain ⟨k, t, hk, hrun, hdrain, hin', hcrc⟩ :=
      ih (engineTurn s) (by rw [hturn]) ((engineTurn_inbox s).trans hin) (hroom.engineTurn hcase)
    refine ⟨k + 1, t, ?_, (runSteps_succ (step_empty hin) k).trans hrun, ?_, hin', hcrc.trans (engineTurn_crc s)⟩
    · rw [hturn, List.length_drop] at hk
      omega
    · rw [hdrain, hturn, drain_case s.rq hcase]

/-- A state whose buffer and queue are what draining gives is idle. -/
theorem idle_of_eq_drain {b b' : List Byte} {q q' : List FrameResult} (h : (b', q') = drain b q) : Idle b' := by
  have hb : b' = (drain b q).1 := congrArg Prod.fst h
  exact (idle_iff b').mpr (hb ▸ drain_fst_idle b q)

/-- Settles O34. -/
theorem drainingEndsWithinBufferLength : Obligations.DrainingEndsWithinBufferLength := by
  refine ⟨fun _ _ _ _ _ => drainStep_shrinks, fun s hin hroom => ?_⟩
  obtain ⟨k, t, hk, hrun, hdrain, -⟩ := runSteps_drains s.fbuf s rfl hin hroom
  exact ⟨k, t, hk, hrun, idle_of_eq_drain hdrain⟩

/-- As many steps as there are inputs take them all, and each adds at most one byte to the buffer. -/
theorem runSteps_takes_inbox (xs : List Input) : ∀ s : State, s.inbox = xs →
    ∃ t, runSteps xs.length s = some t ∧ t.inbox = [] ∧ t.rqDepth = s.rqDepth
      ∧ t.fbuf.length ≤ s.fbuf.length + xs.length := by
  induction xs with
  | nil => exact fun s hin => ⟨s, rfl, hin, rfl, le_rfl⟩
  | cons x xs ih =>
    intro s hin
    obtain ⟨u, hstep, hu, hdepth, hlen⟩ := step_next s
    obtain ⟨t, hrun, ht, hdepth', hlen'⟩ := ih u (by rw [hu, hin, List.tail_cons])
    refine ⟨t, (runSteps_succ hstep _).trans hrun, ht, hdepth'.trans hdepth, ?_⟩
    rw [List.length_cons]
    omega

/-- Settles O35: the inputs are taken, then the engine drains what they left. -/
theorem everyScheduleEndsIdle : Obligations.EveryScheduleEndsIdle := by
  intro s hdepth
  obtain ⟨u, hrun, hu, hdepth', hlen⟩ := runSteps_takes_inbox s.inbox s rfl
  obtain ⟨k, t, hk, hrun', hdrain, ht, -⟩ :=
    runSteps_drains u.fbuf u rfl hu (.of_unbounded (hdepth'.trans hdepth))
  exact ⟨s.inbox.length + k, t, by omega, (runSteps_add hrun k).trans hrun', ht, idle_of_eq_drain hdrain⟩

/-! ### A host that pops before each turn (70_reset_and_hazards.md R251) -/

/-- A pop leaves room in the queue, whatever its legal depth. -/
theorem exec_frmPop_makes_room {s : State} (h : StateOk s) :
    ∃ t, exec .frmPop s = .next t ∧ t.fbuf = s.fbuf ∧ hasRoom t.rqDepth t.rq = true := by
  obtain ⟨-, hq, -, hdepth⟩ := (stateOk_iff s).mp h
  obtain ⟨hrq, hexec⟩ | ⟨r, q, hrq, hexec⟩ := execFrmPop_cases s
  · refine ⟨_, hexec, rfl, ?_⟩
    rw [hrq]
    exact hasRoom_empty hdepth
  · rw [hrq] at hq
    exact ⟨_, hexec, rfl, hasRoom_pop hq⟩

/-- A turn with room in the queue brings a buffer closer to idle: it removes a byte, or there is nothing to do. -/
theorem engineTurn_nears_idle {s : State} {n : Nat} (hroom : hasRoom s.rqDepth s.rq = true)
    (h : Idle s.fbuf ∨ s.fbuf.length ≤ n + 1) : Idle (engineTurn s).fbuf ∨ (engineTurn s).fbuf.length ≤ n := by
  cases hcase : drainCase s.fbuf with
  | none =>
    obtain ⟨hbuf, -⟩ := engineTurn_keeps_idle hcase
    exact .inl (hbuf ▸ (idle_iff _).mpr hcase)
  | some c =>
    have hbusy : ¬ Idle s.fbuf := by
      rw [Idle, idle_iff, hcase]
      exact nofun
    have hlen := h.resolve_left hbusy
    obtain ⟨hpos, -⟩ := drainRemoves_bounds hcase
    rw [engineTurn_takes hcase (.inl hroom)]
    exact .inr (by rw [List.length_drop]; omega)

/-- One round of the popping host. -/
theorem popping_round {s : State} {p : Ports} {rest : List Input} {n : Nat} (hok : StateOk s)
    (hin : s.inbox = .command 0x1100 p :: .engine :: rest) (hlen : Idle s.fbuf ∨ s.fbuf.length ≤ n + 1) :
    ∃ t, runSteps 2 s = some t ∧ StateOk t ∧ t.inbox = rest ∧ (Idle t.fbuf ∨ t.fbuf.length ≤ n) := by
  obtain ⟨u, hpop, hbuf, hroom⟩ := exec_frmPop_makes_room (s := { s with inbox := .engine :: rest, ports := p }) hok
  obtain ⟨v, hv, hinbox, -, -⟩ := exec_next .frmPop { s with inbox := .engine :: rest, ports := p }
  cases hpop.symm.trans hv
  have hstep := (step_command hin decode_frmPop).trans hpop
  have hturn := step_engine hinbox
  refine ⟨_, (runSteps_succ hstep 1).trans (runSteps_succ hturn 0), ?_, engineTurn_inbox _, ?_⟩
  · exact invariantKeptByEveryStep _ _ (invariantKeptByEveryStep _ _ hok hstep) hturn
  · exact engineTurn_nears_idle hroom (hbuf.symm ▸ hlen)

/-- By induction on the rounds left. -/
theorem popping_rounds (p : Ports) (n : Nat) : ∀ s : State, StateOk s → (Idle s.fbuf ∨ s.fbuf.length ≤ n) →
    s.inbox = (List.replicate n [Input.command 0x1100 p, Input.engine]).flatten →
    ∃ t, runSteps (2 * n) s = some t ∧ Idle t.fbuf := by
  induction n with
  | zero =>
    rintro s - hlen -
    refine ⟨s, rfl, hlen.elim id fun h0 => ?_⟩
    rw [List.length_eq_zero_iff.mp (Nat.le_zero.mp h0)]
    exact idle_nil
  | succ n ih =>
    intro s hok hlen hin
    obtain ⟨u, hround, hu, hin', hlen'⟩ := popping_round hok hin hlen
    obtain ⟨t, hrun, hidle⟩ := ih u hu hlen' hin'
    exact ⟨t, by rw [Nat.mul_succ, Nat.add_comm, runSteps_add hround, hrun], hidle⟩

/-- Settles O36: as many rounds as the buffer has bytes. -/
theorem poppingHostReachesIdle : Obligations.PoppingHostReachesIdle := fun s p hok hin =>
  popping_rounds p s.fbuf.length s hok (.inr le_rfl) hin

/-! ### Results in stream order (41_framer.md R158, 20_memory.md R51) -/

/-- Settles O39: draining what is still buffered only appends to the results emitted so far. -/
theorem resultsAppearInStreamOrder : Obligations.ResultsAppearInStreamOrder := by
  intro s n hstart tr
  rw [← (streamInv_traceRun hstart n).drains, drain_queue]
  exact ⟨_, rfl⟩

/-! ### A push and what follows it (41_framer.md R150, R151, 70_reset_and_hazards.md R240, R241) -/

/-- An idle buffer is below capacity, so its push is accepted. -/
theorem exec_frmPush_idle {s : State} (b : Byte) (h : Idle s.fbuf) :
    exec (.frmPush b) s = .next { s with fbuf := s.fbuf ++ [b], out := .answered .done } :=
  exec_frmPush_done b h (idle_length ((idle_iff _).mp h))

/-- Settles O46. -/
theorem idleFramerAcceptsAByte : Obligations.IdleFramerAcceptsAByte := fun _ b h => exec_frmPush_idle b h

/-- Settles O40: the push is accepted, and the turns behind it drain. -/
theorem pushThenDrainIsPushAtomic : Obligations.PushThenDrainIsPushAtomic := by
  intro s b p hidle _ hdepth hin
  have hpush := (step_command hin (decode_frmPush b)).trans (exec_frmPush_idle b hidle)
  obtain ⟨k, t, -, hrun, hdrain, -, hcrc⟩ := runSteps_drains (s.fbuf ++ [b])
    { s with inbox := [], ports := p, fbuf := s.fbuf ++ [b], out := .answered .done } rfl rfl (.of_unbounded hdepth)
  exact ⟨k, t, (runSteps_succ hpush k).trans hrun, idle_of_eq_drain hdrain, hdrain, hcrc⟩

/-- A frame short of its last byte is idle: a case that applied to it would remove the whole frame. -/
theorem idle_of_append_eq_ser {p : Esp3Packet} (hp : pktOk p = true) {b : List Byte} {x : Byte} (h : b ++ [x] = ser p) :
    Idle b := by
  refine (idle_iff b).mpr ?_
  cases hcase : drainCase b with
  | none => rfl
  | some c =>
    have hser : b ++ [x] = ser p ++ [] := by rw [h, List.append_nil]
    have hpacket := drainCase_append [x] hcase
    rw [hser, drainCase_ser hp, Option.some.injEq] at hpacket
    subst hpacket
    have hle := (drainRemoves_bounds hcase).2
    rw [← drainRemoves_append [x] hcase, hser, drainRemoves, frameLen_ser hp, ← h, List.length_append] at hle
    exact absurd hle (Nat.not_succ_le_self _)

/-- The engine's turn on a complete packet and an empty queue queues the packet. -/
theorem engineTurn_rq_of_ser {s : State} {p : Esp3Packet} (hp : pktOk p = true) (hbuf : s.fbuf = ser p)
    (hrq : s.rq = []) (hdepth : queueDepthOk s.rqDepth = true) : (engineTurn s).rq = [.ok p] := by
  have hser : s.fbuf = ser p ++ [] := by rw [hbuf, List.append_nil]
  have hcase : drainCase s.fbuf = some .packet := by rw [hser, drainCase_ser hp]
  have hemit : drainEmission .packet s.fbuf = some (.ok p) := by rw [hser, drainEmission, packetOf_ser hp]
  have hroom : hasRoom s.rqDepth s.rq = true := by
    rw [hrq]
    exact hasRoom_empty hdepth
  rw [((engineTurn_emits hcase hemit rfl).1 hroom).2, hrq, List.nil_append]

theorem transcript_cons {s t : State} {o : Output} {os : List Output} {n : Nat} (h : step s = .next t) (ho : t.out = o)
    (hrest : transcript n t = os) : transcript (n + 1) s = o :: os := by
  rw [transcript_succ h, ho, hrest]

/-- A turn of the engine on a complete packet shows nothing, and the pop behind it delivers the packet. -/
theorem transcript_turn_then_pop {s : State} {p : Esp3Packet} {ports : Ports} (hp : pktOk p = true)
    (hbuf : s.fbuf = ser p) (hrq : s.rq = []) (hdepth : queueDepthOk s.rqDepth = true)
    (hin : s.inbox = [.engine, .command 0x1100 ports]) : transcript 2 s = [.silent, .answered (.packet p)] := by
  have hin' : (engineTurn { s with inbox := [.command 0x1100 ports] }).inbox = [.command 0x1100 ports] :=
    engineTurn_inbox _
  have hqueue : (engineTurn { s with inbox := [.command 0x1100 ports] }).rq = [.ok p] :=
    engineTurn_rq_of_ser hp hbuf hrq hdepth
  have hpop := (step_command hin' decode_frmPop).trans (exec_frmPop_cons hqueue)
  exact transcript_cons (step_engine hin) (engineTurn_out _) (transcript_cons hpop rfl rfl)

/-- A pop before that turn finds the queue still empty. -/
theorem transcript_pop_turn_pop {s : State} {p : Esp3Packet} {ports : Ports} (hp : pktOk p = true)
    (hbuf : s.fbuf = ser p) (hrq : s.rq = []) (hdepth : queueDepthOk s.rqDepth = true)
    (hin : s.inbox = [.command 0x1100 ports, .engine, .command 0x1100 ports]) :
    transcript 3 s = [.answered .empty, .silent, .answered (.packet p)] := by
  have hpop := (step_command hin decode_frmPop).trans (exec_frmPop_empty hrq)
  exact transcript_cons hpop rfl (transcript_turn_then_pop hp hbuf hrq hdepth rfl)

/-- Settles O49: the packet is still in the buffer at the first pop, and in the queue at the second. -/
theorem earlyPopMissesAPendingResult : Obligations.EarlyPopMissesAPendingResult := by
  intro s p b ports hp hser hrq hdepth hin
  have hpush := (step_command hin (decode_frmPush b)).trans (exec_frmPush_idle b (idle_of_append_eq_ser hp hser))
  exact transcript_cons hpush rfl (transcript_pop_turn_pop hp hser hrq hdepth rfl)

/-! ### The host's loops FRM.FEED and FRM.WAIT (30_encoding.md R68, 20_memory.md R53) -/

/-- The framer of `t` is that of `s` with `bs` accepted behind it: what is left drains to what it all drains to. -/
structure Accepted (s : State) (bs : List Byte) (t : State) : Prop where
  depth : t.rqDepth = .unbounded
  crc : t.crc = s.crc
  drains : drain t.fbuf t.rq = drain (s.fbuf ++ bs) s.rq
  length : t.fbuf.length ≤ s.fbuf.length + bs.length

theorem Accepted.refl {s : State} (h : s.rqDepth = .unbounded) : Accepted s [] s :=
  ⟨h, rfl, by rw [List.append_nil], le_rfl⟩

theorem Accepted.trans {s t u : State} {xs ys : List Byte} (hst : Accepted s xs t) (htu : Accepted t ys u) :
    Accepted s (xs ++ ys) u where
  depth := htu.depth
  crc := htu.crc.trans hst.crc
  drains := by rw [htu.drains, ← List.append_assoc, drain_append_congr hst.drains]
  length := by
    have := hst.length
    have := htu.length
    rw [List.length_append]
    omega

/-- A turn of the engine on a buffer with work takes a step, which shortens it and does not change what it drains to. -/
theorem engineTurn_accepted {s : State} (hdepth : s.rqDepth = .unbounded) (hbusy : needsWork s.fbuf = true) :
    Accepted s [] (engineTurn s) ∧ (engineTurn s).fbuf.length < s.fbuf.length := by
  obtain ⟨c, hcase⟩ := (needsWork_iff _).mp hbusy
  have hturn := engineTurn_takes hcase (.inl (by rw [hdepth]; rfl))
  have hshort : (engineTurn s).fbuf.length < s.fbuf.length := by
    have := drainRemoves_bounds hcase
    rw [hturn, List.length_drop]
    omega
  refine ⟨⟨(engineTurn_rqDepth s).trans hdepth, engineTurn_crc s, ?_, hshort.le⟩, hshort⟩
  rw [hturn, List.append_nil, drain_case s.rq hcase]

/-- A turn of the engine reads nothing of what was shown before it (10_state.md R26). -/
theorem engineTurn_ignores_out (s : State) (o : Output) : engineTurn { s with out := o } = engineTurn s := rfl

theorem feedInputs_engine (s : State) : feedInputs [.engine] s = some (engineTurn s) :=
  feedInputs_cons (step_engine rfl)

/-- One command issued with the ports as they stand. -/
theorem feedInputs_command {i : Instr} {w : CmdWord} (hw : encode i = .cmd16 w) {s t : State} (h : exec i s = .next t) :
    feedInputs (issue i s.ports) s = some t := by
  rw [← List.append_nil (issue i s.ports), feedInputs_issue hw h, feedInputs]

/-- An attempt at an idle framer is accepted. -/
theorem frmFeedByte_idle (n : Nat) (b : Byte) {s : State} (h : Idle s.fbuf) :
    frmFeedByte (n + 1) b s = some { s with fbuf := s.fbuf ++ [b], out := .answered .done } := by
  simp [frmFeedByte, feedInputs_command rfl (exec_frmPush_idle b h)]

/-- An attempt at a busy framer is followed by a turn of the engine and the next attempt. -/
theorem frmFeedByte_busy (n : Nat) (b : Byte) {s : State} (h : needsWork s.fbuf = true) :
    frmFeedByte (n + 1) b s = frmFeedByte n b (engineTurn s) := by
  simp [frmFeedByte, feedInputs_command rfl (exec_frmPush_busy b (.inl h)), feedInputs_engine, engineTurn_ignores_out]

theorem frmFeedByte_accepts (b : Byte) (n : Nat) : ∀ s : State, s.rqDepth = .unbounded → s.fbuf.length < n →
    ∃ t, frmFeedByte n b s = some t ∧ Accepted s [b] t := by
  induction n with
  | zero => exact fun s _ hlen => absurd hlen (Nat.not_lt_zero _)
  | succ n ih =>
    intro s hdepth hlen
    cases hwork : needsWork s.fbuf with
    | false => exact ⟨_, frmFeedByte_idle n b hwork, hdepth, rfl, rfl, by simp⟩
    | true =>
      obtain ⟨hturn, hshort⟩ := engineTurn_accepted hdepth hwork
      obtain ⟨t, hfeed, ht⟩ := ih (engineTurn s) hturn.depth (by omega)
      exact ⟨t, (frmFeedByte_busy n b hwork).trans hfeed, hturn.trans ht⟩

theorem frmFeed_accepts (n : Nat) (bs : List Byte) : ∀ s : State, s.rqDepth = .unbounded →
    s.fbuf.length + bs.length ≤ n → ∃ t, frmFeed n bs s = some t ∧ Accepted s bs t := by
  induction bs with
  | nil => exact fun s hdepth _ => ⟨s, rfl, .refl hdepth⟩
  | cons b bs ih =>
    intro s hdepth hlen
    rw [List.length_cons] at hlen
    obtain ⟨u, hbyte, hu⟩ := frmFeedByte_accepts b n s hdepth (by omega)
    have hulen : u.fbuf.length ≤ s.fbuf.length + 1 := hu.length
    obtain ⟨t, hfeed, ht⟩ := ih u hu.depth (by omega)
    exact ⟨t, by rw [frmFeed, hbyte]; exact hfeed, hu.trans ht⟩

/-- The mode field of the answered status tells whether the engine has work (10_state.md R25, R29). -/
theorem answeredBusyMode_status (s : State) :
    answeredBusyMode { s with out := .answered (.status (statusWord s)) } = needsWork s.fbuf := by
  have hmode : answeredBusyMode { s with out := .answered (.status (statusWord s)) }
      = (modeCode (frameMode s.fbuf) == 3#2) := congrArg (· == 3#2) (status_mode s)
  rw [hmode]
  cases hwork : needsWork s.fbuf with
  | true =>
    rw [frameMode_busy hwork]
    rfl
  | false =>
    rw [frameMode, if_neg (by simp [hwork])]
    split_ifs <;> rfl

theorem frmWait_idle (n : Nat) {s : State} (h : Idle s.fbuf) :
    frmWait (n + 1) s = some { s with out := .answered (.status (statusWord s)) } := by
  simp [frmWait, feedInputs_command rfl (exec_frmStat s), answeredBusyMode_status, h]

theorem frmWait_busy (n : Nat) {s : State} (h : needsWork s.fbuf = true) :
    frmWait (n + 1) s = frmWait n (engineTurn s) := by
  simp [frmWait, feedInputs_command rfl (exec_frmStat s), answeredBusyMode_status, h, feedInputs_engine,
    engineTurn_ignores_out]

theorem frmWait_drains (n : Nat) : ∀ s : State, s.rqDepth = .unbounded → s.fbuf.length < n →
    ∃ t, frmWait n s = some t ∧ Idle t.fbuf ∧ Accepted s [] t := by
  induction n with
  | zero => exact fun s _ hlen => absurd hlen (Nat.not_lt_zero _)
  | succ n ih =>
    intro s hdepth hlen
    cases hwork : needsWork s.fbuf with
    | false => exact ⟨_, frmWait_idle n hwork, hwork, hdepth, rfl, by rw [List.append_nil], le_rfl⟩
    | true =>
      obtain ⟨hturn, hshort⟩ := engineTurn_accepted hdepth hwork
      obtain ⟨t, hwait, hidle, ht⟩ := ih (engineTurn s) hturn.depth (by omega)
      exact ⟨t, (frmWait_busy n hwork).trans hwait, hidle, hturn.trans ht⟩

/-- Settles O50: one attempt more than the bytes there ever are is enough for both loops. -/
theorem feedThenWaitEmitsEverything : Obligations.FeedThenWaitEmitsEverything := by
  intro s bs _ hdepth
  obtain ⟨t, hfeed, ht⟩ := frmFeed_accepts (s.fbuf.length + bs.length + 1) bs s hdepth (Nat.le_succ _)
  obtain ⟨u, hwait, hidle, hu⟩ := frmWait_drains _ t ht.depth (Nat.lt_succ_of_le ht.length)
  have hboth : Accepted s bs u := by simpa using ht.trans hu
  refine ⟨_, t, u, hfeed, hwait, hidle, ?_, hboth.crc⟩
  rw [← hboth.drains, drain_idle _ ((idle_iff _).mp hidle)]

end Sys2Proof.Machine
end
